-- ==== Sys2Proof/Word.lean ====
section
/-! DEFINITION. The fixed-width words of the PCU's ports: bit 0 is the least significant bit of each (R21). -/

namespace Sys2Proof

/-- The 64-bit word of a port: a command's operand and its result (R37, R38), a binary64 word (R34), and the
encoder's scratch value and image (R91, R92). -/
abbrev Word := BitVec 64

/-- The 67-bit command word: `op` in bits 66:64, `arg` in bits 63:0 (R37). -/
abbrev CmdWord := BitVec 67

end Sys2Proof
end

