-- ==== Sys2Proof/Syntax.lean ====
section
/-! DEFINITION. The abstract syntax of the PCU's commands: one constructor per row of the opcode table (R40). -/

namespace Sys2Proof

/-- A command. Every one carries its 64-bit `arg`, also where it is ignored: an ignored `arg` may hold anything
and never changes the behaviour (R39, R41). -/
inductive Instr
  | getbits (arg : Word)
  | setbits (arg : Word)
  | getval (arg : Word)
  | setval (arg : Word)
  | isnar (arg : Word)
  | getwidth (arg : Word)
  | dec (arg : Word)
  | enc (arg : Word)
  deriving DecidableEq, Repr

namespace Instr

/-- The mnemonic of the opcode table. -/
def mnemonic : Instr → String
  | .getbits _ => "GETBITS"
  | .setbits _ => "SETBITS"
  | .getval _ => "GETVAL"
  | .setval _ => "SETVAL"
  | .isnar _ => "ISNAR"
  | .getwidth _ => "GETWIDTH"
  | .dec _ => "DEC"
  | .enc _ => "ENC"

/-- The operand field of a command (R37). -/
def arg : Instr → Word
  | .getbits a => a
  | .setbits a => a
  | .getval a => a
  | .setval a => a
  | .isnar a => a
  | .getwidth a => a
  | .dec a => a
  | .enc a => a

end Instr

end Sys2Proof
end

