-- ==== Sys2Proof/Decode.lean ====
section
/-! DEFINITION. The command word: its decoder, total on all `2^67` words (R40, R41), and its encoder. -/

namespace Sys2Proof

/-- `op = cmd[66:64]` (R37). -/
def opField (w : CmdWord) : BitVec 3 := w.extractLsb' 64 3

/-- `arg = cmd[63:0]` (R37). -/
def argField (w : CmdWord) : Word := w.extractLsb' 0 64

/-- The decoder of R40: a case on the three bits of `op`, most significant first. All eight values are assigned,
so no command word is illegal (R41). -/
def decode (w : CmdWord) : Instr :=
  match (opField w).getLsbD 2, (opField w).getLsbD 1, (opField w).getLsbD 0 with
  | false, false, false => .getbits (argField w)
  | false, false, true => .setbits (argField w)
  | false, true, false => .getval (argField w)
  | false, true, true => .setval (argField w)
  | true, false, false => .isnar (argField w)
  | true, false, true => .getwidth (argField w)
  | true, true, false => .dec (argField w)
  | true, true, true => .enc (argField w)

/-- `op` of a command (the first column of R40's table). -/
def opcode : Instr → BitVec 3
  | .getbits _ => 0b000#3
  | .setbits _ => 0b001#3
  | .getval _ => 0b010#3
  | .setval _ => 0b011#3
  | .isnar _ => 0b100#3
  | .getwidth _ => 0b101#3
  | .dec _ => 0b110#3
  | .enc _ => 0b111#3

/-- The command word of a command: `op` above `arg` (R37). -/
def encode (i : Instr) : CmdWord := opcode i ++ i.arg

/-- Why a number is no command word. -/
inductive DecodeReject
  /-- A bit above bit 66 is set: a command is one 67-bit word (R37, log 14). -/
  | beyondCommandWord
  deriving DecidableEq, Repr

/-- The decoder on any number: a number of more than 67 bits is no command word (log 14). -/
def decodeNat (v : Nat) : Except DecodeReject Instr :=
  if v < 2 ^ 67 then .ok (decode (BitVec.ofNat 67 v)) else .error .beyondCommandWord

/-- The command read from an opcode-table word: `nbits` bits, bit 0 the least significant bit of the command
word. -/
def decodeTableWord (nbits w : Nat) : Option Instr :=
  match decodeNat (w % 2 ^ nbits) with
  | .ok i => some i
  | .error _ => none

/-- A row of the operation map as match and mask over the 67-bit word (R40). -/
structure OpRow where
  mnemonic : String
  pattern : CmdWord
  mask : CmdWord
  deriving DecidableEq, Repr

/-- The operation map of R40: `mask = 0x70000000000000000` in every row, `match = op << 64`. -/
def opRows : List OpRow :=
  [⟨"GETBITS", 0x00000000000000000#67, 0x70000000000000000#67⟩,
   ⟨"SETBITS", 0x10000000000000000#67, 0x70000000000000000#67⟩,
   ⟨"GETVAL", 0x20000000000000000#67, 0x70000000000000000#67⟩,
   ⟨"SETVAL", 0x30000000000000000#67, 0x70000000000000000#67⟩,
   ⟨"ISNAR", 0x40000000000000000#67, 0x70000000000000000#67⟩,
   ⟨"GETWIDTH", 0x50000000000000000#67, 0x70000000000000000#67⟩,
   ⟨"DEC", 0x60000000000000000#67, 0x70000000000000000#67⟩,
   ⟨"ENC", 0x70000000000000000#67, 0x70000000000000000#67⟩]

/-- Does a command word fall under a row? -/
def OpRow.covers (r : OpRow) (w : CmdWord) : Bool := w &&& r.mask == r.pattern

end Sys2Proof
end

