-- ==== Sys2Proof/Config.lean ====
section
/-! DEFINITION. What is fixed for one PCU instance, and what the spec leaves uninterpreted.
`Config` holds the static parameters `n`, `es` (R3) and the named open parameters of R6. The opaque constants are
the values that no source states: the host's binary64 arithmetic (R122, R124) and the human-readable string (U6). -/

namespace Sys2Proof

/-- The parameters of a PCU instance, fixed at construction and never changed (R3, R6, R15). -/
structure Config where
  /-- `n`, the total bit width. -/
  n : Nat
  /-- `es`, the exponent field width. -/
  es : Nat
  /-- `NAN_CANON`, the binary64 word the decoder drives for NaR: any NaN (log 2). -/
  nanCanon : Word
  /-- `RU_BUDGET`, the threshold of the rounding unit's one-step correction: at least `n - 1` (log 3). -/
  ruBudget : Nat
  /-- `INIT_VALUE`, the binary64 word given at construction (log 4). -/
  initValue : Word
  deriving DecidableEq, Repr

namespace Config

/-- A format with the three open parameters at the defaults of R6. -/
def ofFormat (n es : Nat) : Config :=
  { n := n, es := es, nanCanon := 0x7FF8000000000000#64, ruBudget := n, initValue := 0#64 }

/-- The format of the reset state: the source's worked example "P8". DESIGN CHOICE (log 1): the spec says that
`n` and `es` must be given. -/
def atReset : Config := ofFormat 8 0

end Config

/-- The host's operations of two binary64 operands (R122, R124). -/
inductive HostBinary
  | add | sub | mul | div | pow
  deriving DecidableEq, Repr

/-- The host's operations of one binary64 operand (R122, R124). -/
inductive HostUnary
  | sqrt | sin | cos | tan | asin | acos | atan | exp | log | log2 | log10
  deriving DecidableEq, Repr

/-- The host's binary64 result where the rules do not determine it: an uninterpreted function of its operands
(R124, U7; log 17). -/
opaque Config.f64Binary : HostBinary → Word → Word → Word

/-- As `Config.f64Binary`, for one operand (R124, U7; log 17). -/
opaque Config.f64Unary : HostUnary → Word → Word

/-- The human-readable string of a pattern: no format is defined, so it is unconstrained (U6, N12; log 20). -/
opaque Config.renderText : Config → Nat → String

end Sys2Proof
end

