-- ==== Sys2Proof/Machine/Binary64.lean ====
section
/-! DEFINITION. The binary64 word (R34 to R36): its fields, its classes, its real value `Val(d)`, and `F64(v)`, the
word of an exactly representable real. The bias and the reading of `E = 0` and `E = 2047` are the spec's passages
G1 to G3, which it marks as general knowledge. Real values are exact rationals (R8). -/

namespace Sys2Proof.Machine.Binary64

/-- `S = d[63]` (R34). -/
def sign (d : Word) : Bool := d.getLsbD 63

/-- `E = d[62:52]`, the biased exponent (R34). -/
def expo (d : Word) : Nat := (d.extractLsb' 52 11).toNat

/-- `F = d[51:0]` (R34). -/
def frac (d : Word) : Nat := (d.extractLsb' 0 52).toNat

/-- The class zero of R35: `E = 0`, `F = 0`, either sign. -/
def isZero (d : Word) : Bool := expo d == 0 && frac d == 0

/-- The class subnormal of R35. -/
def isSubnormal (d : Word) : Bool := expo d == 0 && frac d != 0

/-- The class infinity of R35. -/
def isInf (d : Word) : Bool := expo d == 2047 && frac d == 0

/-- The class NaN of R35. -/
def isNaN (d : Word) : Bool := expo d == 2047 && frac d != 0

/-- `(-1)^S` as an exact number. -/
def signFactor (s : Bool) : ℚ := if s then -1 else 1

/-- `Val(d)` (R35): none for the infinities and the NaNs. -/
def val (d : Word) : Option ℚ :=
  if expo d = 2047 then none
  else if expo d = 0 then some (signFactor (sign d) * frac d * 2 ^ (-1074 : ℤ))
  else some (signFactor (sign d) * (1 + (frac d : ℚ) / 2 ^ 52) * 2 ^ ((expo d : ℤ) - 1023))

/-- The word `S, (x + 1023)[10:0], F[51:0]`, most significant first (R36). -/
def assemble (s : Bool) (x : Int) (f : Nat) : Word :=
  BitVec.ofBool s ++ BitVec.ofInt 11 (x + 1023) ++ BitVec.ofNat 52 f

/-- `F64(v)` (R36): defined for `0` and for `(-1)^S (1 + F/2^52) 2^x` with `-1022 <= x <= 1023` and `F` an integer in
`[0, 2^52)`, and for no other real. `x` is the only exponent a number of that form can have, its denominator being a
power of two. -/
def f64 (v : ℚ) : Option Word :=
  if v = 0 then some 0#64
  else
    let x : Int := (Nat.log2 v.num.natAbs : Int) - Nat.log2 v.den
    let scaled : ℚ := |v| * 2 ^ (52 - x)
    if scaled.den = 1 ∧ 2 ^ 52 ≤ scaled.num ∧ scaled.num < 2 ^ 53 ∧ -1022 ≤ x ∧ x ≤ 1023 then
      some (assemble (decide (v < 0)) x (scaled.num.toNat - 2 ^ 52))
    else none

/-- Binary64 negation: it flips bit 63 and nothing else (G5, R123; log 21). -/
def neg (d : Word) : Word := d ^^^ 0x8000000000000000#64

end Sys2Proof.Machine.Binary64
end

