-- ==== Sys2Proof/Machine/Params.lean ====
section
/-! DEFINITION. The constants derived from `(n, es)` (R5), the supported envelope (R4), and the `n`-bit integer
operations of the notation (section 4 of `00_scope.md`, R108). A `w`-bit vector of run-time width `w` is, as in
that notation, an integer in `[0, 2^w)`. -/

namespace Sys2Proof

namespace Config

/-- `T = 2^es * (n - 2)` (R5). -/
def bigT (c : Config) : Nat := 2 ^ c.es * (c.n - 2)

/-- `NAR_BITS = 2^(n-1)` (R5, R12). -/
def narBits (c : Config) : Nat := 2 ^ (c.n - 1)

/-- `MAXPOS_BITS = 2^(n-1) - 1` (R5, R12). -/
def maxposBits (c : Config) : Nat := 2 ^ (c.n - 1) - 1

/-- `MINPOS_BITS = 1` (R5, R12). -/
def minposBits (_ : Config) : Nat := 1

/-- `ZERO_BITS = 0` (R5, R12). -/
def zeroBits (_ : Config) : Nat := 0

/-- `kmax = (1023 >> es) + 1` (R5). -/
def kmax (c : Config) : Nat := 1023 / 2 ^ c.es + 1

/-- `useed = 2^(2^es)` (R5). -/
def useed (c : Config) : ℚ := 2 ^ 2 ^ c.es

/-- `minpos = 2^(-T)` (R5). -/
def minpos (c : Config) : ℚ := 2 ^ (-(c.bigT : ℤ))

/-- `maxpos = 2^T` (R5). -/
def maxpos (c : Config) : ℚ := 2 ^ c.bigT

/-- The low `n` bits of an unsigned integer: `v mod 2^n`, no sign extension (`MASK_n` of R5; R51, R108). -/
def maskBits (c : Config) (v : Nat) : Nat := v % 2 ^ c.n

/-- `neg_n(v) = (2^n - v) mod 2^n`, for `v` in `[0, 2^n)`. -/
def negBits (c : Config) (v : Nat) : Nat := (2 ^ c.n - v) % 2 ^ c.n

/-- A pattern read as a two's-complement signed integer, `p - 2^n * p[n-1]` (R70). -/
def signedBits (c : Config) (p : Nat) : Int := (p : Int) - if p.testBit (c.n - 1) then 2 ^ c.n else 0

end Config

namespace Machine

/-- `Supported(n, es)` (R4): the formats the spec gives a meaning to (log 10). -/
def supported (n es : Nat) : Bool := decide (5 ≤ n ∧ n ≤ 32 ∧ 2 ^ es * (n - 2) ≤ 1022)

end Machine

end Sys2Proof
end

