-- ==== Sys2Proof/Machine/RoundingUnit.lean ====
section
/-! DEFINITION. rounding_unit (R100 to R107): the 64-bit image of a magnitude cut to `n` bits. All three clauses
are modelled: R103 first, else R101, then R104 on the outcome. -/

namespace Sys2Proof.Machine

/-- Half an ULP of the `n`-bit result in image units, `2^(63-n)` (R100). -/
def halfUlp (c : Config) : Word := BitVec.ofNat 64 (2 ^ (63 - c.n))

/-- `lsb = img64[64-n]`, the last kept bit (R101). -/
def lastKeptBit (c : Config) (img : Word) : Bool := img.getLsbD (64 - c.n)

/-- The kept bits `P = img64[63:64-n]` (R100). -/
def keptBits (c : Config) (img : Word) : Nat := (img >>> (64 - c.n)).toNat

/-- The guard bit `g = img64[63-n]` (R100). -/
def guardBit (c : Config) (img : Word) : Bool := img.getLsbD (63 - c.n)

/-- The sticky bit `t`: is any of `img64[62-n:0]` set (R100)? -/
def stickyBit (c : Config) (img : Word) : Bool := decide (img.toNat % 2 ^ (63 - c.n) ≠ 0)

/-- Round to nearest, ties to even, as the source words it: add "just under half an ULP" plus the parity of the
last kept bit, then truncate (R101). -/
def roundNearestEven (c : Config) (img : Word) : Nat :=
  let inc : Word := (halfUlp c - 1#64) + (if lastKeptBit c img then 1#64 else 0#64)
  ((img + inc) >>> (64 - c.n)).toNat

/-- The same rule in guard and sticky form, `P + (g AND (t OR lsb))` (R102). -/
def roundGuardSticky (c : Config) (img : Word) : Nat :=
  keptBits c img + (guardBit c img && (stickyBit c img || lastKeptBit c img)).toNat

/-- The degenerate half-ULP clause (R103): the image `2^(63-n)` rounds to 1. Reading of its trigger: log 12. -/
def roundDegenerate (c : Config) (img : Word) : Nat := if img = halfUlp c then 1 else roundNearestEven c img

/-- The condition of the one-step correction, `RU_BUDGET <= |k| < kmax` (R104). -/
def corrects (c : Config) (k : Int) : Bool := decide (c.ruBudget ≤ k.natAbs ∧ k.natAbs < c.kmax)

/-- `Round(img64, k)` (R100): the rounded magnitude pattern, an integer. -/
def roundImage (c : Config) (img : Word) (k : Int) : Int :=
  let p : Int := roundDegenerate c img
  if corrects c k then p - k.sign else p

/-- The regime indices the encoder presents, `-(n-2) <= k <= n-3` (R88, R107). -/
def regimeInRange (c : Config) (k : Int) : Bool := decide (-((c.n : Int) - 2) ≤ k ∧ k ≤ (c.n : Int) - 3)

end Sys2Proof.Machine
end

