-- ==== Sys2Proof/Machine/PositEncoder.lean ====
section
/-! DEFINITION. posit_encoder (R80 to R95): a binary64 word to an `n`-bit pattern, by the special cases, the 64-bit
datapath (R91 to R93) and the rounding unit (log 11). The exact form of R89, R90 is `ExactEncoder.lean`. -/

namespace Sys2Proof.Machine

/-- `x = E - 1023`, the unbiased exponent (R87). -/
def unbiased (d : Word) : Int := (Binary64.expo d : Int) - 1023

/-- The regime index `k = x >> es`, an arithmetic shift (R87, R108). -/
def regimeIndex (c : Config) (x : Int) : Int := x >>> c.es

/-- The exponent field `e = x - k * 2^es` (R87). -/
def exponentPart (c : Config) (x : Int) : Nat := (x - regimeIndex c x * 2 ^ c.es).toNat

/-- Clamp test at the top, `|v| >= maxpos` on the fields: `E >= 1 and E - 1023 >= T` (R84). -/
def atLeastMaxpos (c : Config) (d : Word) : Bool := decide (1 ≤ Binary64.expo d ∧ (c.bigT : Int) ≤ unbiased d)

/-- Clamp test at the bottom, `|v| < minpos` on the fields: `E == 0 or E - 1023 < -T` (R85). -/
def belowMinpos (c : Config) (d : Word) : Bool := decide (Binary64.expo d = 0 ∨ unbiased d < -(c.bigT : Int))

/-- The scratch value of R91: two regime-terminator bits, the `es` exponent bits and the 52 fraction bits, contiguous
from bit 63 down. -/
def scratchWord (c : Config) (k : Int) (e f : Nat) : Word :=
  ((if 0 ≤ k then 0b10#64 else 0b01#64) <<< 62) ||| (BitVec.ofNat 64 e <<< (62 - c.es)) |||
    (BitVec.ofNat 64 f <<< (10 - c.es))

/-- The count of the arithmetic shift, `k` or `-k - 1` (R92). -/
def shiftCount (k : Int) : Nat := if 0 ≤ k then k.toNat else (-k - 1).toNat

/-- `lost` of R93: is any bit that the two shifts push out set? -/
def lostBits (scratch shifted : Word) (sh : Nat) : Bool :=
  decide (scratch.toNat % 2 ^ sh ≠ 0) || shifted.getLsbD 0

/-- The unrounded 64-bit image: arithmetic shift, then a logical shift by one, every lost bit kept in bit 0
(R92, R93). -/
def image64 (c : Config) (k : Int) (e f : Nat) : Word :=
  let scratch := scratchWord c k e f
  let shifted := scratch.sshiftRight (shiftCount k)
  (shifted >>> 1) ||| (if lostBits scratch shifted (shiftCount k) then 1#64 else 0#64)

/-- The magnitude pattern `P'` of a finite non-zero word: clamped at the top (R84), at the bottom (R85), or rounded
(R87 to R94). -/
def magnitudePattern (c : Config) (d : Word) : Int :=
  if atLeastMaxpos c d then c.maxposBits
  else if belowMinpos c d then c.minposBits
  else
    let k := regimeIndex c (unbiased d)
    roundImage c (image64 c k (exponentPart c (unbiased d)) (Binary64.frac d)) k

/-- Sign application: two's-complement negation if the value is negative, then mask to `n` bits (R95). -/
def applySign (c : Config) (s : Bool) (p : Int) : Nat := ((if s then -p else p) % 2 ^ c.n).toNat

/-- `Encode(d)`: the cases in the order of R80. -/
def positEncode (c : Config) (d : Word) : Nat :=
  if Binary64.expo d = 0 ∧ Binary64.frac d = 0 then c.zeroBits
  else if Binary64.expo d = 2047 then c.narBits
  else applySign c (Binary64.sign d) (magnitudePattern c d)

end Sys2Proof.Machine
end

