-- ==== Sys2Proof/Machine/State.lean ====
section
/-! DEFINITION. The state of a PCU instance, what can arrive at its input port, and the reasons a step can stop. -/

namespace Sys2Proof.Machine

/-- What the host presents at the input port (R13, R25; log 5). -/
inductive HostEvent
  /-- One command word, issued on its own (R37). -/
  | command (w : CmdWord)
  /-- Two or more commands overlapping on this instance: outside the PCU's contract (R26, R164; log 9). -/
  | overlap (first second : CmdWord) (more : List CmdWord)
  /-- A hardware reset: construction repeated with the same parameters (R19, D4; log 4). -/
  | reset
  deriving DecidableEq, Repr

/-- The state. `cfg` and `bits` are the spec's (section 1 of `10_state.md`); `res` is the output port of R38; `pending`
is the model's own input port. -/
structure State where
  /-- The static parameters (R3, R6, R15). No command writes them. -/
  cfg : Config
  /-- `BITS`, the one architectural register: an unsigned integer in `[0, 2^n)` (R10, R11; log 7). -/
  bits : Nat
  /-- The result word of the latest command; none before the first one has returned (R38; log 6). -/
  res : Option Word
  /-- What the host has issued and the PCU has not yet performed, oldest first (R25; log 5). -/
  pending : List HostEvent
  deriving DecidableEq, Repr

/-- The errors of the taxonomy that are raised (R141, R142). No command raises one (R140). -/
inductive Fault
  /-- Construction with `n < 5` or `es < 0`; raised by `construct` (R141). Safe: the hardware reports the same error and
  no instance exists. -/
  | invalidConstruction
  /-- Two posits of different `(n, es)` combined; raised by the format guard of the arithmetic layer (R121, R142).
  Safe: the source reports the same error and the operation does not proceed. -/
  | formatMismatch
  deriving DecidableEq, Repr

/-- What the model gives no meaning to (R152). -/
inductive Refusal
  /-- A command without a meaning in `exec`; none is left. Safe. -/
  | notModelled (mnemonic : String)
  /-- Construction of a format outside the supported envelope; raised by `construct` (R4, U4). Safe: nothing can be
  proved of such an instance. -/
  | unsupportedFormat
  /-- Two overlapping commands on one instance; raised by `step` (R26, U5). Safe: the model has no step for it. -/
  | overlappingCommands
  /-- The standalone rounding unit used outside `-(n-2) <= k <= n-3`; raised by `useRoundingUnit` (R106, R152, U2).
  Safe: the result there depends on `RU_BUDGET`. -/
  | roundingUnitBudget
  deriving DecidableEq, Repr

/-- The state construction leaves for legal parameters: `BITS <- Encode(INIT_VALUE)` and nothing else (R19, R160,
R161). -/
def State.constructed (c : Config) : State :=
  { cfg := c, bits := positEncode c c.initValue, res := none, pending := [] }

/-- The machine right after reset: construction with `INIT_VALUE` at its default (R19, R161). The format is the
model's (log 1). -/
def State.reset : State := State.constructed Config.atReset

end Sys2Proof.Machine
end

