-- ==== Sys2Proof/Machine/Flags.lean ====
section
/-! DEFINITION. The PCU has no flags, condition codes or sticky bits (R14). What it has instead: the NaR query, a pure
function of a pattern (R52), and the numbers of the error taxonomy (R144). -/

namespace Sys2Proof.Machine

/-- The NaR query: `1` for the one pattern `2^(n-1)`, else `0` (R52). -/
def narQuery (c : Config) (p : Nat) : Nat := if p = c.narBits then 1 else 0

/-- The codes of R144: 0 for success, 1 and 2 for the two errors. A refusal of the model has none. -/
def errorCode {α : Type} : Host.Outcome α Fault Refusal → Option Nat
  | .next _ => some 0
  | .fault .invalidConstruction => some 1
  | .fault .formatMismatch => some 2
  | .refused _ => none

end Sys2Proof.Machine
end

