-- ==== Sys2Proof/Machine/Operands.lean ====
section
/-! DEFINITION. Operand assembly and result forms (R39). -/

namespace Sys2Proof.Machine

/-- Raw-bits operand: `p = arg[n-1:0]`; the bits above are discarded, no sign extension, no error (R22, R39). -/
def rawOperand (c : Config) (arg : Word) : Nat := c.maskBits arg.toNat

/-- Value operand: all 64 bits, a binary64 word; every word is accepted (R39). -/
def valueOperand (arg : Word) : Word := arg

/-- Raw-bits result: `zext_64(p)` (R39). -/
def rawResult (p : Nat) : Word := BitVec.ofNat 64 p

/-- Small-integer result: the integer, zero-extended (R39). -/
def integerResult (v : Nat) : Word := BitVec.ofNat 64 v

end Sys2Proof.Machine
end

