-- ==== Sys2Proof/Machine/Ops.lean ====
section
/-! DEFINITION. The shared operations over the one register and the ports. There is no exception to take and none to
return from (R146, R147): an error is returned in place of the result, by `raise`, and has no other effect. -/

namespace Sys2Proof.Machine

/-- Read `BITS` (R10). -/
def State.readBits (s : State) : Nat := s.bits

/-- Write `BITS`; writers hand over `n`-bit patterns (R11). -/
def State.writeBits (s : State) (p : Nat) : State := { s with bits := p }

/-- Drive the result word of a command (R38). -/
def State.respond (s : State) (r : Word) : State := { s with res := some r }

/-- End a command that only reads: the result, nothing else (R23). -/
def answer (s : State) (r : Word) : Host.Outcome State Fault Refusal := .next (s.respond r)

/-- End a command that writes `BITS`: the new content, also returned zero-extended (R23, R38). -/
def store (s : State) (p : Nat) : Host.Outcome State Fault Refusal :=
  .next ((s.writeBits p).respond (rawResult p))

/-- Error entry (R146): the operation returns the tagged error in place of its result. Nothing is saved, no mode
changes, and the failing operation has done nothing. -/
def raise {α : Type} (e : Fault) : Host.Outcome α Fault Refusal := .fault e

/-- A hardware reset: construction repeated with the same `(n, es, INIT_VALUE)`; what the host issued after it stays
issued (R19, D4; log 4). -/
def State.reconstruct (s : State) : State := { State.constructed s.cfg with pending := s.pending }

/-- The host issues one more event, after all earlier ones (R25). -/
def State.issue (s : State) (e : HostEvent) : State := { s with pending := s.pending ++ [e] }

/-- A use of the rounding unit on its own. Outside the encoder's range of `k` the model refuses every use
(DESIGN CHOICE, log 13), where R152 refuses those that a claim on `RU_BUDGET` would rest on (R106). -/
def useRoundingUnit (c : Config) (img : Word) (k : Int) : Host.Outcome Int Fault Refusal :=
  if regimeInRange c k then .next (roundImage c img k) else .refused .roundingUnitBudget

end Sys2Proof.Machine
end

