-- ==== Sys2Proof/Machine/Construct.lean ====
section
/-! DEFINITION. Construction, the reset of a PCU (R160), and what a fetch from the input port hands over. -/

namespace Sys2Proof.Machine

/-- Construction with `(n, es, INIT_VALUE)` and the two other open parameters, in the order of R160: the source's test
comes before the model's envelope test (R145). -/
def construct (n es : Int) (init nanCanon : Word) (ruBudget : Nat) : Host.Outcome State Fault Refusal :=
  if n < 5 ∨ es < 0 then raise .invalidConstruction
  else if supported n.toNat es.toNat then
    .next (State.constructed
      { n := n.toNat, es := es.toNat, nanCanon := nanCanon, ruBudget := ruBudget, initValue := init })
  else .refused .unsupportedFormat

/-- Construction with the two other open parameters at the defaults of R6. -/
def constructDefault (n es : Int) (init : Word) : Host.Outcome State Fault Refusal :=
  construct n es init 0x7FF8000000000000#64 n.toNat

/-- Take the oldest event from the input port (R25). -/
def fetch (s : State) : Option (HostEvent × State) :=
  match s.pending with
  | [] => none
  | e :: rest => some (e, { s with pending := rest })

/-- Present a command word at the front of the input port, to be performed next. -/
def presentWord (s : State) (w : CmdWord) : State := { s with pending := .command w :: s.pending }

/-- The command word that an opcode-table word spells: its low `nbits` bits, of which the port has 67 (log 14). -/
def tableWord (nbits w : Nat) : CmdWord := BitVec.ofNat 67 (w % 2 ^ nbits)

end Sys2Proof.Machine
end

