-- ==== Sys2Proof/Machine/Access.lean ====
section
/-! DEFINITION. The register access and query commands: GETBITS, SETBITS, ISNAR, GETWIDTH (R50 to R53), and the binary
digit string (R54). -/

namespace Sys2Proof.Machine

/-- GETBITS: `res <- zext_64(BITS)` (R50). -/
def execGetbits (_arg : Word) (s : State) : Host.Outcome State Fault Refusal := answer s (rawResult s.readBits)

/-- SETBITS: `BITS <- arg[n-1:0]`, `res <- zext_64(arg[n-1:0])` (R51). -/
def execSetbits (arg : Word) (s : State) : Host.Outcome State Fault Refusal := store s (rawOperand s.cfg arg)

/-- ISNAR: `res <- (BITS == 2^(n-1)) ? 1 : 0` (R52). -/
def execIsnar (_arg : Word) (s : State) : Host.Outcome State Fault Refusal :=
  answer s (integerResult (narQuery s.cfg s.readBits))

/-- GETWIDTH: `res <- n` (R53). -/
def execGetwidth (_arg : Word) (s : State) : Host.Outcome State Fault Refusal := answer s (integerResult s.cfg.n)

/-- `BinStr(p)`: the `n` binary digits of a pattern, most significant first, leading zeros written (R54, D7). -/
def binDigits (p : Nat) : Nat → List Char
  | 0 => []
  | j + 1 => (if p.testBit j then '1' else '0') :: binDigits p j

/-- The fixed-width binary digit string of a pattern (R54). -/
def binStr (c : Config) (p : Nat) : String := String.ofList (binDigits p c.n)

end Sys2Proof.Machine
end

