-- ==== Sys2Proof/Machine/PositDecoder.lean ====
section
/-! DEFINITION. posit_decoder (R60 to R72): an `n`-bit pattern to a value. A pure, total function of the pattern
and `(n, es)`; the fields are those of the raw pattern, also for a negative one. -/

namespace Sys2Proof.Machine

/-- The field tuple of a pattern that is neither zero nor NaR (R63 to R65, R71). -/
structure PositFields where
  /-- Sign bit. -/
  s : Bool
  /-- The repeated bit of the run. -/
  b : Bool
  /-- The length of the run. -/
  kRun : Nat
  /-- Regime value. -/
  r : Int
  /-- Number of exponent bits present. -/
  ne : Nat
  /-- Exponent. -/
  e : Nat
  /-- Number of fraction bits. -/
  m : Nat
  /-- Fraction bits. -/
  frac : Nat
  deriving DecidableEq, Repr

/-- How many of the bits `j-1, j-2, …, 0` of `p`, from the left, equal `b` before the first that does not (R63). -/
def runLength (p : Nat) (b : Bool) : Nat → Nat
  | 0 => 0
  | j + 1 => if p.testBit j = b then runLength p b j + 1 else 0

/-- The regime value of a run of `kRun` bits `b` (R31, R63). -/
def regimeValue (b : Bool) (kRun : Nat) : Int := if b then (kRun : Int) - 1 else -(kRun : Int)

/-- `v[hi:lo]` for `hi = lo + w - 1`: the `w` bits of `v` from bit `lo` up (section 4 of `00_scope.md`). -/
def bitSlice (v lo w : Nat) : Nat := v / 2 ^ lo % 2 ^ w

/-- The exponent of `ne` bits present, left-aligned in `es` bits, the missing low bits zero (R64). -/
def exponentField (es p avail ne : Nat) : Nat := bitSlice p (avail - ne) ne * 2 ^ (es - ne)

/-- Field extraction (R63, R64, R65). -/
def positFields (c : Config) (p : Nat) : PositFields :=
  let b := p.testBit (c.n - 2)
  let kRun := runLength p b (c.n - 1)
  let avail := c.n - 2 - kRun
  let ne := min c.es avail
  let m := avail - ne
  { s := p.testBit (c.n - 1), b := b, kRun := kRun, r := regimeValue b kRun, ne := ne,
    e := exponentField c.es p avail ne, m := m, frac := bitSlice p 0 m }

/-- `X = 2^es * r + e` (R66). -/
def scaleX (c : Config) (f : PositFields) : Int := 2 ^ c.es * f.r + f.e

/-- The closed form of R66: `(1 - 3s + frac/2^m) * 2^((1 - 2s)(2^es * r + e + s))`. -/
def closedForm (c : Config) (f : PositFields) : ℚ :=
  let s : ℤ := f.s.toNat
  (1 - 3 * (s : ℚ) + (f.frac : ℚ) / 2 ^ f.m) * 2 ^ ((1 - 2 * s) * (scaleX c f + s))

/-- The result of `Decode` as data (R71). -/
inductive Decoded
  | zero
  | nar
  | finite (v : ℚ)
  deriving DecidableEq, Repr

/-- `Decode(p)` (R60 to R66, R71): zero is tested before NaR. -/
def positDecode (c : Config) (p : Nat) : Decoded :=
  if p = 0 then .zero
  else if p = c.narBits then .nar
  else .finite (closedForm c (positFields c p))

/-- The real value of a decoded pattern; NaR has none (R71). -/
def Decoded.real : Decoded → Option ℚ
  | .zero => some 0
  | .nar => none
  | .finite v => some v

/-- `w` is the binary64 rendering of a decoded pattern, on real values (R72): `+0.0`, `NAN_CANON`, or `F64(v)`. -/
def Decoded.rendersAs (c : Config) (w : Word) : Decoded → Bool
  | .zero => w == 0#64
  | .nar => w == c.nanCanon
  | .finite v => Binary64.f64 v == some w

/-- The binary64 word of a finite pattern, assembled from its fields without any arithmetic on reals: the table of
R72. -/
def fieldsF64 (c : Config) (f : PositFields) : Word :=
  let x := scaleX c f
  if f.s = false then Binary64.assemble false x (f.frac * 2 ^ (52 - f.m))
  else if f.frac = 0 then Binary64.assemble true (-x) 0
  else Binary64.assemble true (-x - 1) ((2 ^ f.m - f.frac) * 2 ^ (52 - f.m))

/-- `DecodeF64(p)`, the word driven on `res` (R72). -/
def positDecodeF64 (c : Config) (p : Nat) : Word :=
  if p = 0 then 0#64
  else if p = c.narBits then c.nanCanon
  else fieldsF64 c (positFields c p)

end Sys2Proof.Machine
end

