-- ==== Sys2Proof/Machine/Convert.lean ====
section
/-! DEFINITION. The conversion commands: DEC, GETVAL (R73, R74), ENC, SETVAL (R96, R97). -/

namespace Sys2Proof.Machine

/-- DEC: `res <- DecodeF64(arg[n-1:0])`; `BITS` is neither read nor written (R73). -/
def execDec (arg : Word) (s : State) : Host.Outcome State Fault Refusal :=
  answer s (positDecodeF64 s.cfg (rawOperand s.cfg arg))

/-- GETVAL: `res <- DecodeF64(BITS)` (R74). -/
def execGetval (_arg : Word) (s : State) : Host.Outcome State Fault Refusal :=
  answer s (positDecodeF64 s.cfg s.readBits)

/-- ENC: `res <- zext_64(Encode(arg))`; `BITS` is neither read nor written (R96). -/
def execEnc (arg : Word) (s : State) : Host.Outcome State Fault Refusal :=
  answer s (rawResult (positEncode s.cfg (valueOperand arg)))

/-- SETVAL: `BITS <- Encode(arg)`, `res <- zext_64(Encode(arg))` (R97). -/
def execSetval (arg : Word) (s : State) : Host.Outcome State Fault Refusal :=
  store s (positEncode s.cfg (valueOperand arg))

end Sys2Proof.Machine
end

