-- ==== Sys2Proof/Machine/Dispatch.lean ====
section
/-! DEFINITION. One command, performed as one atomic step (R23, R40). -/

namespace Sys2Proof.Machine

def exec (i : Instr) (s : State) : Host.Outcome State Fault Refusal :=
  match i with
  | .getbits arg => Sys2Proof.Machine.execGetbits arg s
  | .setbits arg => Sys2Proof.Machine.execSetbits arg s
  | .getval arg => Sys2Proof.Machine.execGetval arg s
  | .setval arg => Sys2Proof.Machine.execSetval arg s
  | .isnar arg => Sys2Proof.Machine.execIsnar arg s
  | .getwidth arg => Sys2Proof.Machine.execGetwidth arg s
  | .dec arg => Sys2Proof.Machine.execDec arg s
  | .enc arg => Sys2Proof.Machine.execEnc arg s

end Sys2Proof.Machine
end

