-- ==== Sys2Proof/Machine/Events.lean ====
section
/-! DEFINITION. What the PCU does with one event of its input port, and with none. -/

namespace Sys2Proof.Machine

/-- Perform one event, on the state from which it has been taken: a command word is decoded and performed (R40), a reset
repeats construction (R19), an overlapping launch is refused (R26; log 9). -/
def perform (e : HostEvent) (s : State) : Host.Outcome State Fault Refusal :=
  match e with
  | .command w => exec (decode w) s
  | .reset => .next s.reconstruct
  | .overlap _ _ _ => .refused .overlappingCommands

/-- Perform the oldest event. With nothing pending the PCU is quiescent and its state does not change (R13, R167;
log 8). -/
def performNext (s : State) : Host.Outcome State Fault Refusal :=
  match fetch s with
  | none => .next s
  | some (e, t) => perform e t

end Sys2Proof.Machine
end

