-- ==== Sys2Proof/Machine/Step.lean ====
section
/-! DEFINITION. One step of the PCU: it performs the oldest command the host has issued, and nothing between commands
(R13, R25, R167). -/

namespace Sys2Proof.Machine

/-- One step: one event of the input port (R25). -/
def step (s : State) : Host.Outcome State Fault Refusal := performNext s

/-- The state with the command of an opcode-table word presented next at the input port (log 5). -/
def State.withFetchWord (s : State) (nbits w : Nat) : State := presentWord s (tableWord nbits w)

end Sys2Proof.Machine
end

