-- ==== Sys2Proof/Machine/ArithLayer.lean ====
section
/-! DEFINITION. The arithmetic layer and the format guard around the PCU (R120 to R128): host-side operations the spec
records, none of them a command. Each decodes, computes in binary64 and encodes. The binary64 results that no rule
determines are the uninterpreted constants of `Config.lean` (log 17). -/

namespace Sys2Proof.Machine

/-- A posit value as the host holds it: a format and a pattern of that format (R120). -/
structure Posit where
  cfg : Config
  bits : Nat
  deriving DecidableEq, Repr

/-- Do two posits have the same `(n, es)` (R121)? -/
def sameFormat (a b : Posit) : Bool := a.cfg.n == b.cfg.n && a.cfg.es == b.cfg.es

/-- The format guard: the operation's result where the formats agree, else FormatMismatch and no result (R121, R142). -/
def formatGuard {α : Type} (a b : Posit) (result : α) : Host.Outcome α Fault Refusal :=
  if sameFormat a b then .next result else raise .formatMismatch

/-- The binary64 word of a posit. -/
def Posit.word (a : Posit) : Word := positDecodeF64 a.cfg a.bits

/-- `Apply1(g, a)`: decode, compute, encode, in the format of the operand (R120); its open parameters are the
operand's too (DESIGN CHOICE, log 24). -/
def apply1 (g : Word → Word) (a : Posit) : Posit := { cfg := a.cfg, bits := positEncode a.cfg (g a.word) }

/-- `Apply2(h, a, b)`, behind the format guard, which compares `(n, es)` (R120, R121). DESIGN CHOICE (log 24):
where the operands agree on `(n, es)` but differ in NAN_CANON, RU_BUDGET or INIT_VALUE, the result carries those of the left. -/
def apply2 (h : Word → Word → Word) (a b : Posit) : Host.Outcome Posit Fault Refusal :=
  formatGuard a b { cfg := a.cfg, bits := positEncode a.cfg (h a.word b.word) }

/-- The binary64 NaN a host operation gives for an undefined outcome; any NaN encodes to NaR (R125, G6). -/
def undefinedWord : Word := 0x7FF8000000000000#64

/-- Is the real outcome of a two-operand operation infinite or undefined (R125)? -/
def binaryUndefined (op : HostBinary) (x y : ℚ) : Bool :=
  match op with
  | .add => false
  | .sub => false
  | .mul => false
  | .div => decide (y = 0)
  | .pow => decide ((x = 0 ∧ y < 0) ∨ (x < 0 ∧ y.den ≠ 1))

/-- Is the real outcome of a one-operand operation infinite or undefined (R125)? -/
def unaryUndefined (op : HostUnary) (x : ℚ) : Bool :=
  match op with
  | .sqrt => decide (x < 0)
  | .asin => decide (1 < |x|)
  | .acos => decide (1 < |x|)
  | .log => decide (x ≤ 0)
  | .log2 => decide (x ≤ 0)
  | .log10 => decide (x ≤ 0)
  | .sin => false
  | .cos => false
  | .tan => false
  | .atan => false
  | .exp => false

/-- The exact real outcome of the four operators; `pow` is the host library's (R122, R124). -/
def binaryExact (op : HostBinary) (x y : ℚ) : Option ℚ :=
  match op with
  | .add => some (x + y)
  | .sub => some (x - y)
  | .mul => some (x * y)
  | .div => some (x / y)
  | .pow => none

/-- The exact real outcome of `Sqrt` where it is rational (R122); the elementary functions are the host library's
(R124). -/
def unaryExact (op : HostUnary) (x : ℚ) : Option ℚ :=
  match op with
  | .sqrt => if Rat.sqrt x * Rat.sqrt x = x then some (Rat.sqrt x) else none
  | .sin => none
  | .cos => none
  | .tan => none
  | .asin => none
  | .acos => none
  | .atan => none
  | .exp => none
  | .log => none
  | .log2 => none
  | .log10 => none

/-- The host's binary64 operation on two words: a NaN operand gives a NaN, an infinite or undefined outcome a NaN
(R125; which non-finite word does not matter, since every one encodes to NaR), an outcome for which `F64` is defined, that
is zero or exactly a normal binary64 number, that number (R36, R122), and anything else the uninterpreted host (R124, U7;
log 17). DESIGN CHOICE (log 25): an exact outcome that is a subnormal is among the rest, left to the uninterpreted host. -/
def hostBinary (op : HostBinary) (a b : Word) : Word :=
  if Binary64.isNaN a then a
  else if Binary64.isNaN b then b
  else
    match Binary64.val a, Binary64.val b with
    | some x, some y =>
      if binaryUndefined op x y then undefinedWord
      else ((binaryExact op x y).bind Binary64.f64).getD (Config.f64Binary op a b)
    | some _, none => Config.f64Binary op a b
    | none, some _ => Config.f64Binary op a b
    | none, none => Config.f64Binary op a b

/-- As `hostBinary`, for one operand (R122, R124, R125; log 17, log 25). -/
def hostUnary (op : HostUnary) (a : Word) : Word :=
  if Binary64.isNaN a then a
  else
    match Binary64.val a with
    | some x =>
      if unaryUndefined op x then undefinedWord
      else ((unaryExact op x).bind Binary64.f64).getD (Config.f64Unary op a)
    | none => Config.f64Unary op a

/-- `+ - * /` and `pow` on posits (R122, R124). -/
def Posit.binary (op : HostBinary) (a b : Posit) : Host.Outcome Posit Fault Refusal := apply2 (hostBinary op) a b

/-- `Sqrt` and the elementary functions of one operand (R122, R124). -/
def Posit.unary (op : HostUnary) (a : Posit) : Posit := apply1 (hostUnary op) a

/-- Unary negation: decode, negate, encode (R123). -/
def Posit.neg (a : Posit) : Posit := apply1 Binary64.neg a

/-- Unary identity: the operand unchanged (R123). -/
def Posit.identity (a : Posit) : Posit := a

/-- `==`: bit for bit on the patterns, so NaR equals NaR (R126). -/
def Posit.equal (a b : Posit) : Host.Outcome Bool Fault Refusal := formatGuard a b (a.bits == b.bits)

/-- `!=`, the negation of `==` (R126). -/
def Posit.notEqual (a b : Posit) : Host.Outcome Bool Fault Refusal := formatGuard a b (a.bits != b.bits)

/-- The order of two binary64 words by their real values: false where one is a NaN (R127, G7; log 18). -/
def wordLess (x y : Word) : Bool := ((Binary64.val x).bind fun u => (Binary64.val y).map fun v => decide (u < v)).getD false

/-- As `wordLess`, for `<=`. -/
def wordLessEq (x y : Word) : Bool :=
  ((Binary64.val x).bind fun u => (Binary64.val y).map fun v => decide (u ≤ v)).getD false

/-- `<`: the order of the decoded values (R127). -/
def Posit.less (a b : Posit) : Host.Outcome Bool Fault Refusal := formatGuard a b (wordLess a.word b.word)

/-- `<=` (R127). -/
def Posit.lessEq (a b : Posit) : Host.Outcome Bool Fault Refusal := formatGuard a b (wordLessEq a.word b.word)

/-- `>` (R127). -/
def Posit.greater (a b : Posit) : Host.Outcome Bool Fault Refusal := formatGuard a b (wordLess b.word a.word)

/-- `>=` (R127). -/
def Posit.greaterEq (a b : Posit) : Host.Outcome Bool Fault Refusal := formatGuard a b (wordLessEq b.word a.word)

/-- The human-readable numeric string of a posit: unconstrained (U6, R55; log 20). -/
def Posit.text (a : Posit) : String := Config.renderText a.cfg a.bits

end Sys2Proof.Machine
end

