-- ==== Sys2Proof/Machine/Assembler.lean ====
section
/-! DEFINITION. Command lists (R43, R44): their syntax, the pseudo-commands, the substitutions the host makes, and the
performance of a list top to bottom. All of it is on the host's side: the PCU sees only the assembled command words. -/

namespace Sys2Proof.Machine

/-- The mnemonics of a line, the two pseudo-commands among them (R43). -/
inductive AsmMnemonic
  | getbits | setbits | getval | setval | isnar | getwidth | dec | enc | clear | setnar
  deriving DecidableEq, Repr

/-- The operand forms of a line (R43). -/
inductive AsmOperand
  /-- A 64-bit `arg` given as an unsigned number. -/
  | literal (v : Nat)
  /-- `ZERO`. -/
  | zero
  /-- `NAR`. -/
  | nar
  /-- `MAXPOS`. -/
  | maxpos
  /-- `MINPOS`. -/
  | minpos
  /-- `$i`, the result of line `i`. -/
  | result (index : Nat)
  /-- `neg($i)`. -/
  | negResult (index : Nat)
  deriving DecidableEq, Repr

/-- One line of a command list (R43). -/
structure AsmLine where
  mnemonic : AsmMnemonic
  operand : Option AsmOperand
  deriving DecidableEq, Repr

/-- The header of a list, `; PCU n=<n> es=<es> [init=<literal>]` (R43). -/
structure AsmHeader where
  n : Nat
  es : Nat
  init : Nat
  deriving DecidableEq, Repr

/-- A literal is below `2^64` and a line index names an earlier line, counting from 1 (R43). -/
def AsmOperand.wf (lineNo : Nat) : AsmOperand → Bool
  | .literal v => decide (v < 2 ^ 64)
  | .zero => true
  | .nar => true
  | .maxpos => true
  | .minpos => true
  | .result i => decide (1 ≤ i ∧ i < lineNo)
  | .negResult i => decide (1 ≤ i ∧ i < lineNo)

/-- Is the mnemonic a pseudo-command, whose expansion supplies the operand (R44)? -/
def AsmMnemonic.isPseudo : AsmMnemonic → Bool
  | .clear => true
  | .setnar => true
  | .getbits => false
  | .setbits => false
  | .getval => false
  | .setval => false
  | .isnar => false
  | .getwidth => false
  | .dec => false
  | .enc => false

/-- Is line `lineNo` well formed? -/
def AsmLine.wf (lineNo : Nat) (l : AsmLine) : Bool :=
  match l.operand with
  | none => true
  | some o => !l.mnemonic.isPseudo && o.wf lineNo

/-- The expansion of the pseudo-commands: CLEAR is `SETBITS 0x0`, SETNAR is `SETBITS NAR` (R44). -/
def AsmLine.expand (l : AsmLine) : AsmLine :=
  match l.mnemonic with
  | .clear => { mnemonic := .setbits, operand := some (.literal 0) }
  | .setnar => { mnemonic := .setbits, operand := some .nar }
  | .getbits => l
  | .setbits => l
  | .getval => l
  | .setval => l
  | .isnar => l
  | .getwidth => l
  | .dec => l
  | .enc => l

/-- The value of an operand: a literal as it is, a symbol at the list's format, an earlier result (`results` holds the
results of the lines so far), or the two's complement of its low `n` bits (R43). -/
def AsmOperand.value (c : Config) (results : List Word) : AsmOperand → Option Word
  | .literal v => some (BitVec.ofNat 64 v)
  | .zero => some (BitVec.ofNat 64 c.zeroBits)
  | .nar => some (BitVec.ofNat 64 c.narBits)
  | .maxpos => some (BitVec.ofNat 64 c.maxposBits)
  | .minpos => some (BitVec.ofNat 64 c.minposBits)
  | .result i => results[i - 1]?
  | .negResult i => (results[i - 1]?).map fun r => BitVec.ofNat 64 (c.negBits (c.maskBits r.toNat))

/-- The `arg` of a line: a command without operand is assembled with `arg = 0` (R43). -/
def AsmLine.argument (c : Config) (results : List Word) (l : AsmLine) : Option Word :=
  match l.operand with
  | none => some 0#64
  | some o => o.value c results

/-- The command a mnemonic stands for; a pseudo-command is one of SETBITS (R44). -/
def AsmMnemonic.command (a : Word) : AsmMnemonic → Instr
  | .getbits => .getbits a
  | .setbits => .setbits a
  | .getval => .getval a
  | .setval => .setval a
  | .isnar => .isnar a
  | .getwidth => .getwidth a
  | .dec => .dec a
  | .enc => .enc a
  | .clear => .setbits a
  | .setnar => .setbits a

/-- The command word of a line, none for an ill-formed line (R43). Its number is one more than the results so far. -/
def AsmLine.assemble (c : Config) (results : List Word) (l : AsmLine) : Option CmdWord :=
  if l.wf (results.length + 1) then
    (l.expand.argument c results).map fun a => encode (l.expand.mnemonic.command a)
  else none

/-- Perform one line, on an instance with nothing pending: assemble it, issue it, step, and take its result (R25, R43). -/
def performLine (s : State) (results : List Word) (l : AsmLine) : Option (State × List Word) :=
  (l.assemble s.cfg results).bind fun w =>
    match step (s.issue (.command w)) with
    | .next t => t.res.map fun r => (t, results ++ [r])
    | .fault _ => none
    | .refused _ => none

/-- Perform a command list, top to bottom (R13, R43). -/
def performList (s : State) (results : List Word) : List AsmLine → Option (State × List Word)
  | [] => some (s, results)
  | l :: rest => (performLine s results l).bind fun p => performList p.1 p.2 rest

/-! The text of a line. Blanks separate the words and hexadecimal digits may be of either case (log 16). -/

/-- The value of a digit in a base up to 16. -/
def digitValue (base : Nat) (ch : Char) : Option Nat :=
  let v :=
    if '0' ≤ ch ∧ ch ≤ '9' then ch.toNat - '0'.toNat
    else if 'a' ≤ ch ∧ ch ≤ 'f' then ch.toNat - 'a'.toNat + 10
    else if 'A' ≤ ch ∧ ch ≤ 'F' then ch.toNat - 'A'.toNat + 10
    else base
  if v < base then some v else none

/-- A non-empty run of digits in a base, most significant first. -/
def digitsValue (base : Nat) (cs : List Char) : Option Nat :=
  if cs.isEmpty then none
  else cs.foldl (fun acc ch => acc.bind fun a => (digitValue base ch).map fun d => a * base + d) (some 0)

/-- The digits of a literal: hexadecimal, binary or decimal (R43). -/
def literalDigits : List Char → Option Nat
  | '0' :: 'x' :: ds => digitsValue 16 ds
  | '0' :: 'b' :: ds => digitsValue 2 ds
  | ds => digitsValue 10 ds

/-- `literal`: an unsigned integer below `2^64` (R43). -/
def parseLiteral (cs : List Char) : Option Nat := (literalDigits cs).filter fun v => decide (v < 2 ^ 64)

/-- `operand` (R43). -/
def parseOperand (t : List Char) : Option AsmOperand :=
  if String.ofList t = "ZERO" then some .zero
  else if String.ofList t = "NAR" then some .nar
  else if String.ofList t = "MAXPOS" then some .maxpos
  else if String.ofList t = "MINPOS" then some .minpos
  else
    match t with
    | '$' :: ds => (digitsValue 10 ds).map .result
    | 'n' :: 'e' :: 'g' :: '(' :: '$' :: ds =>
      if ds.getLast? = some ')' then (digitsValue 10 ds.dropLast).map .negResult else none
    | ds => (parseLiteral ds).map .literal

/-- The words by which the mnemonics are written (R43). -/
def mnemonicTable : List (String × AsmMnemonic) :=
  [("GETBITS", .getbits), ("SETBITS", .setbits), ("GETVAL", .getval), ("SETVAL", .setval), ("ISNAR", .isnar),
   ("GETWIDTH", .getwidth), ("DEC", .dec), ("ENC", .enc), ("CLEAR", .clear), ("SETNAR", .setnar)]

/-- `mnemonic` (R43). -/
def parseMnemonic (t : List Char) : Option AsmMnemonic :=
  (mnemonicTable.find? fun r => r.1 = String.ofList t).map (·.2)

/-- The words of a text, separated by blanks. -/
def wordsOf (cs : List Char) : List (List Char) :=
  (cs.splitOnP fun ch => ch = ' ' || ch = '\t').filter fun w => !w.isEmpty

/-- `line`: a mnemonic, at most one operand, and a comment from `;` on (R43). -/
def parseLine (cs : List Char) : Option AsmLine :=
  match wordsOf (cs.takeWhile (· ≠ ';')) with
  | [m] => (parseMnemonic m).map fun k => { mnemonic := k, operand := none }
  | [m, o] => (parseMnemonic m).bind fun k => (parseOperand o).map fun v => { mnemonic := k, operand := some v }
  | _ => none

/-- One `name=<value>` field of a header, its name and the form of its value given. -/
def parseField (name : String) (value : List Char → Option Nat) (t : List Char) : Option Nat :=
  if (name.toList ++ ['=']).isPrefixOf t then value (t.drop (name.length + 1)) else none

/-- The fields `n=<n>` and `es=<es>` of a header (R43). DESIGN CHOICE (log 16): `<n>` and `<es>` are unsigned decimal digits,
with no `0x`, no `0b` and no sign, so that no header asks for a negative `es`; R43 gives them no form. -/
def parseFormat (a b : List Char) : Option (Nat × Nat) :=
  (parseField "n" (digitsValue 10) a).bind fun n => (parseField "es" (digitsValue 10) b).map fun es => (n, es)

/-- The header line; `init` is zero where it is left out (R6, R43). DESIGN CHOICE (log 16): its words, the `;` among them,
stand apart by blanks, in the order R43 writes them, and nothing follows them. -/
def parseHeader (cs : List Char) : Option AsmHeader :=
  match wordsOf cs with
  | [semi, pcu, a, b] =>
    if semi = [';'] ∧ pcu = "PCU".toList then
      (parseFormat a b).map fun f => { n := f.1, es := f.2, init := 0 }
    else none
  | [semi, pcu, a, b, d] =>
    if semi = [';'] ∧ pcu = "PCU".toList then
      (parseFormat a b).bind fun f => (parseField "init" parseLiteral d).map fun i => { n := f.1, es := f.2, init := i }
    else none
  | _ => none

/-- The instance a header asks for (R43, R160). -/
def AsmHeader.build (h : AsmHeader) : Host.Outcome State Fault Refusal :=
  constructDefault h.n h.es (BitVec.ofNat 64 h.init)

end Sys2Proof.Machine
end

