-- ==== Sys2Proof/Machine/ExactEncoder.lean ====
section
/-! DEFINITION. The exact form of the encoder (R80 to R90, R95), the spec's normative meaning of "the nearest
representable bit pattern": the special cases tested on the real value, the unbounded bit string `IMG`, rounded by
guard and sticky. The machine runs the 64-bit datapath of `PositEncoder.lean`; that the two agree is R94. -/

namespace Sys2Proof.Machine.Exact

/-- The regime field of index `k`, most significant bit first (R31, R89). -/
def regimeField (k : Int) : List Bool :=
  if 0 ≤ k then List.replicate (k.toNat + 1) true ++ [false] else List.replicate (-k).toNat false ++ [true]

/-- `v` as `w` bits, most significant first. -/
def msbFirst (v : Nat) : Nat → List Bool
  | 0 => []
  | w + 1 => v.testBit w :: msbFirst v w

/-- The number a list of bits spells, most significant first. -/
def ofMsbFirst (l : List Bool) : Nat := l.foldl (fun acc b => 2 * acc + b.toNat) 0

/-- The finite part of `IMG(k, e, F)`: sign position, regime, `es` exponent bits, 52 fraction bits (R89). -/
def image (c : Config) (k : Int) (e f : Nat) : List Bool :=
  false :: (regimeField k ++ msbFirst e c.es ++ msbFirst f 52)

/-- Bit `I_j` of the infinite image: zeros for ever after the finite part (R89). -/
def imageBit (c : Config) (k : Int) (e f j : Nat) : Bool := (image c k e f).getD j false

/-- The kept bits `P = I_0 … I_(n-1)` (R90). -/
def kept (c : Config) (k : Int) (e f : Nat) : Nat := ofMsbFirst ((List.range c.n).map (imageBit c k e f))

/-- The guard `g = I_n` (R90). -/
def guard (c : Config) (k : Int) (e f : Nat) : Bool := imageBit c k e f c.n

/-- The sticky `t`, the OR of every `I_j` with `j > n` (R90). -/
def sticky (c : Config) (k : Int) (e f : Nat) : Bool := ((image c k e f).drop (c.n + 1)).any id

/-- `P' = P + (g AND (t OR P[0]))` (R90). -/
def rounded (c : Config) (k : Int) (e f : Nat) : Nat :=
  kept c k e f + (guard c k e f && (sticky c k e f || (kept c k e f).testBit 0)).toNat

/-- The magnitude pattern of a finite non-zero value `v` held in the word `d` (R84, R85, R87, R90). -/
def magnitude (c : Config) (d : Word) (v : ℚ) : Nat :=
  if c.maxpos ≤ |v| then c.maxposBits
  else if |v| < c.minpos then c.minposBits
  else
    let x : Int := (Binary64.expo d : Int) - 1023
    let k := x / 2 ^ c.es
    rounded c k (x % 2 ^ c.es).toNat (Binary64.frac d)

/-- `Encode(d)`, the exact form: R82, R83, then the magnitude with the sign applied (R95). -/
def positEncode (c : Config) (d : Word) : Nat :=
  match Binary64.val d with
  | none => c.narBits
  | some v =>
    if v = 0 then c.zeroBits
    else if Binary64.sign d then c.negBits (magnitude c d v) else magnitude c d v

end Sys2Proof.Machine.Exact
end

