-- ==== Sys2Proof/Machine/Instances.lean ====
section
/-! DEFINITION. Several PCU instances (R18, R151): each has its own parameters and its own `BITS`; they share nothing. -/

namespace Sys2Proof.Machine

/-- The instances that have been constructed, in order of construction. -/
abbrev System := List State

/-- One step of one instance; the others do not take part (R18). Where there is no such instance nothing happens
(log 15). -/
def System.stepAt (sys : System) (i : Nat) : Host.Outcome System Fault Refusal :=
  match sys[i]? with
  | none => .next sys
  | some s =>
    match step s with
    | .next t => .next (sys.set i t)
    | .fault e => .fault e
    | .refused r => .refused r

/-- Construct one more instance, with its own `(n, es)` and `INIT_VALUE` (R151, R160). On an error no instance comes into
being (R141). -/
def System.add (sys : System) (n es : Int) (init : Word) : Host.Outcome System Fault Refusal :=
  match constructDefault n es init with
  | .next s => .next (sys ++ [s])
  | .fault e => .fault e
  | .refused r => .refused r

end Sys2Proof.Machine
end

