-- ==== Sys2Proof/WellFormed.lean ====
section
/-! DEFINITION. Which parameters and which commands are well formed. No command is ill formed (R41); the checks are
those on the parameters of an instance (R4, R6). -/

namespace Sys2Proof

/-- Every command is well formed: all eight codes are assigned and an ignored operand may hold anything (R41). -/
def Instr.wf : Instr → Bool
  | .getbits _ => true
  | .setbits _ => true
  | .getval _ => true
  | .setval _ => true
  | .isnar _ => true
  | .getwidth _ => true
  | .dec _ => true
  | .enc _ => true

/-- The constraint on `NAN_CANON`: `E = 2047`, `F != 0` (D2). -/
def Config.nanCanonOk (c : Config) : Bool := Machine.Binary64.isNaN c.nanCanon

/-- The constraint on `RU_BUDGET`: at least `n - 1` (D3). -/
def Config.ruBudgetOk (c : Config) : Bool := decide (c.n - 1 ≤ c.ruBudget)

/-- Legal parameters of an instance: a supported format (R4) and the constraints of
`92_eei_decisions.md` on the open parameters. -/
def Config.wf (c : Config) : Bool := Machine.supported c.n c.es && c.nanCanonOk && c.ruBudgetOk

end Sys2Proof
end

