-- ==== Sys2Proof/Safety.lean ====
section
/-! DEFINITION. What the claims mean by a good state and a safe run. -/

namespace Sys2Proof.Machine

/-- The invariant: legal parameters (R4, R6) and `0 <= BITS < 2^n` (R11). -/
abbrev State.Inv (s : State) : Prop := s.cfg.wf = true ∧ s.bits < 2 ^ s.cfg.n

/-- The host issues one command at a time: nothing pending is an overlapping launch (R25, R26). -/
abbrev State.SingleIssue (s : State) : Prop :=
  ∀ e ∈ s.pending, match e with
    | .command _ => True
    | .reset => True
    | .overlap _ _ _ => False

/-- A run of `k` steps that meets no fault and no refusal. -/
def SafeRun (k : Nat) (s : State) : Prop := ∃ t : State, Sys2Proof.core.run k s = .next t

/-- The next state of an outcome, where there is one. -/
def stateOf {α : Type} : Host.Outcome α Fault Refusal → Option α
  | .next s => some s
  | .fault _ => none
  | .refused _ => none

end Sys2Proof.Machine
end

