-- ==== Sys2Proof/Certificates/Slice0/Obligations.lean ====
section
/-! DEFINITION. The statements about the model. Every statement about the codec holds for every supported format and
every legal value of the open parameters; where a statement rests on a choice of the model its docstring names the log
entry. -/

open Sys2Proof Sys2Proof.Machine

/-! Command words. -/

/-- Command words of the spec's programs, one per row of the opcode table, decode to the commands they stand for
(sections 5.1 to 5.5 of `95_test_vectors.md`). -/
def Obligations.ProgramWordsDecode : Prop :=
  decode 0x00000000000000000#67 = .getbits 0#64 ∧
  decode 0x1FFFFFFFFFFFFFFFF#67 = .setbits 0xFFFFFFFFFFFFFFFF#64 ∧
  decode 0x20000000000000000#67 = .getval 0#64 ∧
  decode 0x33F90000000000000#67 = .setval 0x3F90000000000000#64 ∧
  decode 0x40000000000000000#67 = .isnar 0#64 ∧
  decode 0x50000000000000000#67 = .getwidth 0#64 ∧
  decode 0x6000000000000002E#67 = .dec 0x2E#64 ∧
  decode 0x7400921FB54442D11#67 = .enc 0x400921FB54442D11#64

/-- Decoding and encoding of command words are inverse to each other: no bit of a command word is dropped, also not of
an ignored operand (R37, R40). -/
def Obligations.CommandWordRoundTrip : Prop :=
  (∀ i : Instr, i.wf = true → decode (encode i) = i) ∧ ∀ w : CmdWord, encode (decode w) = w

/-- Every command word falls under exactly one row of the operation map, and it is the row of the command it decodes
to (R40, R41). -/
def Obligations.EveryWordHasOneRow : Prop :=
  ∀ w : CmdWord, ∃ r : OpRow, opRows.filter (fun q => q.covers w) = [r] ∧ r.mnemonic = (decode w).mnemonic

/-! The step. -/

/-- The oldest command the host has issued is decoded and performed, on the state from which it has been taken; a
command word always decodes (R13, R25, R41). The input port is the model's own (log 5). -/
def Obligations.StepPerformsOldestCommand : Prop :=
  ∀ (s : State) (w : CmdWord) (rest : List HostEvent), s.pending = .command w :: rest →
    step s = exec (decode w) { s with pending := rest }

/-- A command presented as an opcode-table word is performed by the very next step, on the state as it was. The input port
and the container of a table word, here of 72 bits, are the model's choices (log 5, log 14). -/
def Obligations.PresentedCommandRunsNext : Prop :=
  ∀ (i : Instr) (s : State), decodeTableWord 72 (encode i).toNat = some i ∧
    step (s.withFetchWord 72 (encode i).toNat) = exec i s

/-- Between commands nothing happens (R13, R167). That an idle step is a next state is the model's choice (log 8). -/
def Obligations.QuiescentStepChangesNothing : Prop :=
  ∀ s : State, s.pending = [] → step s = .next s

/-- A hardware reset repeats the construction with the same parameters: `BITS` is the encoded `INIT_VALUE` whatever it
held, and the parameters are kept (R19). What it leaves in the two ports is the model's choice (log 4). -/
def Obligations.ResetEventRepeatsConstruction : Prop :=
  ∀ (s : State) (rest : List HostEvent), s.cfg.wf = true → s.pending = .reset :: rest →
    step s = .next { cfg := s.cfg, bits := Exact.positEncode s.cfg s.cfg.initValue, res := none, pending := rest }

/-- Two overlapping commands on one instance are refused (R26). How the model presents such a launch: log 9. -/
def Obligations.OverlappingCommandsRefused : Prop :=
  ∀ (s : State) (v w : CmdWord) (more : List CmdWord) (rest : List HostEvent),
    s.pending = .overlap v w more :: rest → step s = .refused .overlappingCommands

/-! What each command does: a next state, what it holds, and that nothing else changes. -/

/-- GETBITS (R50): op `000`; the result is `BITS` zero-extended and the state is unchanged but for the result. -/
def Obligations.GetbitsReturnsPattern : Prop :=
  ∀ (s : State) (a : Word), s.Inv → decode (0b000#3 ++ a) = .getbits a ∧
    ∃ r : Word, exec (.getbits a) s = .next { s with res := some r } ∧ r.toNat = s.bits ∧
      ∀ j, s.cfg.n ≤ j → r.getLsbD j = false

/-- SETBITS (R51): op `001`; `BITS` takes the low `n` bits of the operand, bit by bit, the others are dropped; the
result is the new content; nothing else changes. -/
def Obligations.SetbitsStoresLowBits : Prop :=
  ∀ (s : State) (a : Word), s.cfg.wf = true → decode (0b001#3 ++ a) = .setbits a ∧
    ∃ (p : Nat) (r : Word), exec (.setbits a) s = .next { s with bits := p, res := some r } ∧ r.toNat = p ∧
      ∀ j, p.testBit j = (decide (j < s.cfg.n) && a.getLsbD j)

/-- ISNAR (R52): op `100`; the result is 1 exactly for the pattern with bit `n-1` set and all else zero, else 0; the
state is unchanged but for the result. -/
def Obligations.IsnarComparesWithSentinel : Prop :=
  ∀ (s : State) (a : Word), s.Inv → decode (0b100#3 ++ a) = .isnar a ∧
    ∃ r : Word, exec (.isnar a) s = .next { s with res := some r } ∧ (r = 1#64 ∨ r = 0#64) ∧
      (r = 1#64 ↔ ∀ j, s.bits.testBit j = decide (j = s.cfg.n - 1))

/-- GETWIDTH (R53): op `101`; the result is `n`; the state is unchanged but for the result. -/
def Obligations.GetwidthReturnsN : Prop :=
  ∀ (s : State) (a : Word), s.cfg.wf = true → decode (0b101#3 ++ a) = .getwidth a ∧
    ∃ r : Word, exec (.getwidth a) s = .next { s with res := some r } ∧ r.toNat = s.cfg.n

/-- DEC (R73): op `110`; the result renders the real value of the operand's low `n` bits, by the closed form; the state
is unchanged but for the result. -/
def Obligations.DecReturnsOperandValue : Prop :=
  ∀ (s : State) (a : Word), s.cfg.wf = true → decode (0b110#3 ++ a) = .dec a ∧
    ∃ r : Word, exec (.dec a) s = .next { s with res := some r } ∧
      (positDecode s.cfg (a.toNat % 2 ^ s.cfg.n)).rendersAs s.cfg r = true

/-- GETVAL (R74): op `010`; the result renders the real value of `BITS`, by the closed form; the state is unchanged but
for the result. -/
def Obligations.GetvalReturnsBitsValue : Prop :=
  ∀ (s : State) (a : Word), s.Inv → decode (0b010#3 ++ a) = .getval a ∧
    ∃ r : Word, exec (.getval a) s = .next { s with res := some r } ∧
      (positDecode s.cfg s.bits).rendersAs s.cfg r = true

/-- ENC (R96): op `111`; the result is the exact form's pattern of the operand, zero-extended; the state is unchanged
but for the result. -/
def Obligations.EncReturnsExactPattern : Prop :=
  ∀ (s : State) (a : Word), s.cfg.wf = true → decode (0b111#3 ++ a) = .enc a ∧
    ∃ r : Word, exec (.enc a) s = .next { s with res := some r } ∧ r.toNat = Exact.positEncode s.cfg a

/-- SETVAL (R97): op `011`; `BITS` takes the exact form's pattern of the operand, which is also the result; the old
content plays no part and nothing else changes. -/
def Obligations.SetvalStoresExactPattern : Prop :=
  ∀ (s : State) (a : Word), s.cfg.wf = true → decode (0b011#3 ++ a) = .setval a ∧
    ∃ r : Word, exec (.setval a) s = .next { s with bits := Exact.positEncode s.cfg a, res := some r } ∧
      r.toNat = Exact.positEncode s.cfg a

/-- No command fails: each of the eight answers a next state with a result, in every state and for every operand
(R140). -/
def Obligations.NoCommandFails : Prop :=
  ∀ (i : Instr) (s : State), ∃ (t : State) (r : Word), exec i s = .next t ∧ t.res = some r

/-- The frame of all eight commands: the parameters and the input port are unchanged, and `BITS` is unchanged but by
SETBITS and SETVAL (R15, R40, R55). -/
def Obligations.CommandFrame : Prop :=
  ∀ (i : Instr) (s t : State), exec i s = .next t →
    t.cfg = s.cfg ∧ t.pending = s.pending ∧
      ((∀ a, i ≠ .setbits a) → (∀ a, i ≠ .setval a) → t.bits = s.bits)

/-- The ignored parts of an operand never change the behaviour: all of it for the four commands without operand, the
bits from `n` up for SETBITS and DEC (R39, R41). -/
def Obligations.IgnoredOperandBitsDoNotMatter : Prop :=
  ∀ (s : State) (a b : Word),
    exec (.getbits a) s = exec (.getbits b) s ∧ exec (.getval a) s = exec (.getval b) s ∧
    exec (.isnar a) s = exec (.isnar b) s ∧ exec (.getwidth a) s = exec (.getwidth b) s ∧
    ((∀ j, j < s.cfg.n → a.getLsbD j = b.getLsbD j) →
      exec (.setbits a) s = exec (.setbits b) s ∧ exec (.dec a) s = exec (.dec b) s)

/-- Every command is idempotent: issued twice in a row it returns the same result and leaves the same state (R23). -/
def Obligations.CommandsAreIdempotent : Prop :=
  ∀ (i : Instr) (s t : State), exec i s = .next t → exec i t = .next t

/-! Whole-machine rules. -/

/-- A command that does not write `BITS` (the column of R40's table). -/
def Sys2Proof.Machine.isReader : Instr → Bool
  | .getbits _ => true
  | .setbits _ => false
  | .getval _ => true
  | .setval _ => false
  | .isnar _ => true
  | .getwidth _ => true
  | .dec _ => true
  | .enc _ => true

/-- The host issues these commands, one after another. -/
def Sys2Proof.Machine.issued (l : List Instr) : List HostEvent := l.map fun i => .command (encode i)

/-- Commands are performed one at a time in the order of issue, each on the state the earlier ones left; so after
`SETBITS v`, GETBITS returns `v[n-1:0]` until the next writer, and after `SETVAL d`, GETBITS returns `Encode(d)`, whatever
readers stand between (R25). The input port it runs on is the model's choice (log 5). -/
def Obligations.ReadsSeeTheLatestWrite : Prop :=
  (∀ (s : State) (i : Instr) (later : List Instr),
    step { s with pending := issued (i :: later) } = exec i { s with pending := issued later }) ∧
  ∀ (s : State) (readers : List Instr) (v d a : Word), s.cfg.wf = true → readers.all isReader = true →
    (∃ (t : State) (r : Word),
      Sys2Proof.core.run (readers.length + 2) { s with pending := issued (.setbits v :: readers ++ [.getbits a]) } = .next t ∧
        t.pending = [] ∧ t.res = some r ∧ r.toNat = v.toNat % 2 ^ s.cfg.n) ∧
    (∃ (t : State) (r : Word),
      Sys2Proof.core.run (readers.length + 2) { s with pending := issued (.setval d :: readers ++ [.getbits a]) } = .next t ∧
        t.pending = [] ∧ t.res = some r ∧ r.toNat = Exact.positEncode s.cfg d)

/-- While the host issues one command at a time, no run meets a fault or a refusal (R140). The input port, and that a step
with nothing left to perform is a next state, are the model's choices (log 5, log 8). -/
def Obligations.SingleIssueRunsNeverStop : Prop :=
  ∀ s : State, s.SingleIssue → ∀ k : Nat, SafeRun k s

/-- `0 <= BITS < 2^n`, with legal parameters, after construction and after every step (R11). -/
def Obligations.InvariantAfterConstructionAndEveryStep : Prop :=
  (∀ c : Config, c.wf = true → (State.constructed c).Inv) ∧ ∀ s t : State, s.Inv → step s = .next t → t.Inv

/-- The invariant holds in the reset state (R11, R19). The format of that state is the model's choice (log 1). -/
def Obligations.ResetStateHasInvariant : Prop := State.reset.Inv

/-- The parameters of an instance never change (R3, R15). -/
def Obligations.ParametersNeverChange : Prop :=
  ∀ s t : State, step s = .next t → t.cfg = s.cfg

/-- Instances are independent: a step of one depends on its own state alone and leaves every other as it was (R18). -/
def Obligations.InstancesAreIndependent : Prop :=
  ∀ (sys : System) (i : Nat) (s t : State), sys[i]? = some s → step s = .next t →
    ∃ sys' : System, sys.stepAt i = .next sys' ∧ sys'[i]? = some t ∧ ∀ j, j ≠ i → sys'[j]? = sys[j]?

/-! Construction. -/

/-- Construction, in the order of R160: InvalidConstruction for `n < 5` or `es < 0`; the model's refusal outside the
envelope; else an instance whose whole state is its parameters and the encoded `INIT_VALUE`, exactly as SETVAL would
store it. -/
def Obligations.ConstructionSequence : Prop :=
  ∀ (n es : Int) (init nan : Word) (ru : Nat),
    ((n < 5 ∨ es < 0) → construct n es init nan ru = .fault .invalidConstruction) ∧
    (5 ≤ n → 0 ≤ es → ¬(n ≤ 32 ∧ 2 ^ es.toNat * (n - 2) ≤ 1022) →
      construct n es init nan ru = .refused .unsupportedFormat) ∧
    (5 ≤ n → 0 ≤ es → n ≤ 32 → 2 ^ es.toNat * (n - 2) ≤ 1022 → Binary64.isNaN nan = true → n.toNat - 1 ≤ ru →
      ∃ t : State, construct n es init nan ru = .next t ∧
        t.cfg = { n := n.toNat, es := es.toNat, nanCanon := nan, ruBudget := ru, initValue := init } ∧
        t.bits = Exact.positEncode t.cfg init ∧
        ∀ s : State, s.cfg = t.cfg → ∃ r : Word, exec (.setval init) s = .next { s with bits := t.bits, res := some r })

/-- With the default `INIT_VALUE` construction leaves `BITS = 0`, for every format (R19, R161); the reset state is such
a construction. Its format is the model's choice (log 1) and the statement says nothing of it. -/
def Obligations.DefaultConstructionIsZero : Prop :=
  (∀ c : Config, c.initValue = 0#64 → (State.constructed c).bits = 0) ∧
  ∃ n es : Int, constructDefault n es 0#64 = .next State.reset

/-- The largest `es` that the envelope admits for each `n` (the table of R4). -/
def Obligations.EnvelopeByWidth : Prop :=
  ∀ n es : Nat, supported n es = true ↔
    (n = 5 ∧ es ≤ 8) ∨ (6 ≤ n ∧ n ≤ 9 ∧ es ≤ 7) ∨ (10 ≤ n ∧ n ≤ 17 ∧ es ≤ 6) ∨ (18 ≤ n ∧ n ≤ 32 ∧ es ≤ 5)

/-! posit_decoder. -/

/-- A pattern that is read by fields: neither zero nor NaR (R63). -/
def Sys2Proof.Machine.isFinitePattern (c : Config) (p : Nat) : Bool := decide (p < 2 ^ c.n ∧ p ≠ 0 ∧ p ≠ 2 ^ (c.n - 1))

/-- The regime run is the longest run of bits equal to bit `n-2` from there down, and the regime value follows from it;
a run of zeros always meets a one (R63). -/
def Obligations.RegimeRunIsMaximal : Prop :=
  ∀ (c : Config) (p : Nat), c.wf = true → isFinitePattern c p = true →
    let f := positFields c p
    f.s = p.testBit (c.n - 1) ∧ f.b = p.testBit (c.n - 2) ∧ 1 ≤ f.kRun ∧ f.kRun ≤ c.n - 1 ∧
    (∀ j, j < f.kRun → p.testBit (c.n - 2 - j) = f.b) ∧
    (f.kRun < c.n - 1 → p.testBit (c.n - 2 - f.kRun) ≠ f.b) ∧
    (f.b = false → f.kRun ≤ c.n - 2 ∧ f.r = -(f.kRun : Int)) ∧ (f.b = true → f.r = (f.kRun : Int) - 1) ∧
    -((c.n : Int) - 2) ≤ f.r ∧ f.r ≤ (c.n : Int) - 2

/-- The exponent is left-aligned in `es` bits with its missing low bits zero, and the fraction is what is left below
it, both bit by bit (R64, R65). -/
def Obligations.ExponentAndFractionFields : Prop :=
  ∀ (c : Config) (p : Nat), c.wf = true → isFinitePattern c p = true →
    let f := positFields c p
    let avail := c.n - 2 - f.kRun
    f.ne = min c.es avail ∧ f.m = avail - f.ne ∧ f.m ≤ c.n - 3 - c.es ∧ f.e < 2 ^ c.es ∧ f.frac < 2 ^ f.m ∧
    (∀ j, j < c.es → f.e.testBit (c.es - 1 - j) = (decide (j < f.ne) && p.testBit (avail - 1 - j))) ∧
    (∀ j, j < f.m → f.frac.testBit j = p.testBit j)

/-- For a positive pattern the closed form is the piecewise form, `useed^r * 2^e * (1 + f)` (R67, the spec's own
inference from R66). -/
def Obligations.PiecewiseFormOfPositives : Prop :=
  ∀ (c : Config) (p : Nat), c.wf = true → isFinitePattern c p = true → p.testBit (c.n - 1) = false →
    let f := positFields c p
    (positDecode c p).real = some (c.useed ^ f.r * 2 ^ f.e * (1 + (f.frac : ℚ) / 2 ^ f.m))

/-- Sign symmetry: the two's complement of a pattern decodes to the negated value (R68). -/
def Obligations.DecodeSignSymmetry : Prop :=
  ∀ (c : Config) (p : Nat), c.wf = true → isFinitePattern c p = true →
    (positDecode c (c.negBits p)).real = (positDecode c p).real.map fun v => -v

/-- The extreme patterns and one, and the bounds of every finite value (R69, the spec's own inference). -/
def Obligations.DecodeExtremes : Prop :=
  ∀ c : Config, c.wf = true →
    (positDecode c 1).real = some c.minpos ∧ (positDecode c (2 ^ (c.n - 1) - 1)).real = some c.maxpos ∧
    (positDecode c (2 ^ c.n - 1)).real = some (-c.minpos) ∧
    (positDecode c (2 ^ (c.n - 1) + 1)).real = some (-c.maxpos) ∧
    (positDecode c (2 ^ (c.n - 2))).real = some 1 ∧ (positDecode c (3 * 2 ^ (c.n - 2))).real = some (-1) ∧
    ∀ (p : Nat) (v : ℚ), isFinitePattern c p = true → (positDecode c p).real = some v →
      c.minpos ≤ |v| ∧ |v| ≤ c.maxpos

/-- Decoding is strictly increasing in the pattern read as a signed integer, NaR apart (R70, the spec's own
inference). -/
def Obligations.DecodeIsStrictlyIncreasing : Prop :=
  ∀ (c : Config) (p q : Nat), c.wf = true → p < 2 ^ c.n → q < 2 ^ c.n → p ≠ 2 ^ (c.n - 1) → q ≠ 2 ^ (c.n - 1) →
    c.signedBits p < c.signedBits q →
      ∃ u v : ℚ, (positDecode c p).real = some u ∧ (positDecode c q).real = some v ∧ u < v

/-- The word assembled from the fields without arithmetic on reals is the binary64 word of the closed form's value, which
it holds exactly, as a normal number (R72; the table is the spec's own inference from R66). -/
def Obligations.DecodedWordIsExact : Prop :=
  ∀ (c : Config) (p : Nat), c.wf = true → p < 2 ^ c.n →
    (positDecode c p).rendersAs c (positDecodeF64 c p) = true ∧
    Binary64.val (positDecodeF64 c p) = (positDecode c p).real ∧
    (isFinitePattern c p = true →
      1 ≤ Binary64.expo (positDecodeF64 c p) ∧ Binary64.expo (positDecodeF64 c p) ≤ 2046)

/-! posit_encoder and rounding_unit. -/

/-- The special cases on the real value: zero of either sign, no real, at least `maxpos`, below `minpos` (R82 to R85). -/
def Obligations.EncodeSpecialCases : Prop :=
  ∀ (c : Config) (d : Word), c.wf = true →
    (Binary64.val d = some 0 → positEncode c d = 0) ∧
    (Binary64.val d = none → positEncode c d = 2 ^ (c.n - 1)) ∧
    ∀ v : ℚ, Binary64.val d = some v →
      (c.maxpos ≤ |v| → positEncode c d = if v < 0 then 2 ^ (c.n - 1) + 1 else 2 ^ (c.n - 1) - 1) ∧
      (v ≠ 0 → |v| < c.minpos → positEncode c d = if v < 0 then 2 ^ c.n - 1 else 1)

/-- What is left after the special cases is a normal word with `-T <= x <= T - 1`; its regime index and exponent field
are the floor and the remainder, they hold its magnitude, and the index lies in `[-(n-2), n-3]` (R86 to R88, in part the
spec's own inference). -/
def Obligations.FieldsOfRoundedWords : Prop :=
  ∀ (c : Config) (d : Word) (v : ℚ), c.wf = true → Binary64.val d = some v → v ≠ 0 → |v| < c.maxpos → c.minpos ≤ |v| →
    let x := unbiased d
    let k := regimeIndex c x
    let e := exponentPart c x
    1 ≤ Binary64.expo d ∧ Binary64.expo d ≤ 2046 ∧ -(c.bigT : Int) ≤ x ∧ x ≤ (c.bigT : Int) - 1 ∧
    x = k * 2 ^ c.es + e ∧ e < 2 ^ c.es ∧ -((c.n : Int) - 2) ≤ k ∧ k ≤ (c.n : Int) - 3 ∧
    |v| = c.useed ^ k * 2 ^ e * (1 + (Binary64.frac d : ℚ) / 2 ^ 52)

/-- The 64-bit image holds the first 63 bits of the exact image, and the OR of all later ones in bit 0: the arithmetic
shift expands the regime and loses nothing that rounding needs (R92, R93, and the spec's own inference R94). -/
def Obligations.DatapathImageIsExactImage : Prop :=
  ∀ (c : Config) (k : Int) (e f : Nat), c.wf = true → regimeInRange c k = true → e < 2 ^ c.es → f < 2 ^ 52 →
    (image64 c k e f).getLsbD 63 = false ∧
    (∀ j, j < 63 → (image64 c k e f).getLsbD (63 - j) = Exact.imageBit c k e f j) ∧
    (image64 c k e f).getLsbD 0 = ((Exact.image c k e f).drop 63).any id

/-- Adding "just under half an ULP" plus the last kept bit and truncating is rounding by guard and sticky, ties to the
even pattern (R101, and the spec's own inference R102). -/
def Obligations.AddAndTruncateIsTiesToEven : Prop :=
  ∀ (c : Config) (img : Word), c.wf = true → img.getLsbD 63 = false →
    roundNearestEven c img = roundGuardSticky c img

/-- The 64-bit datapath with the rounding unit gives the pattern of the exact form, for every word and every supported
format (the spec's own inference R94). -/
def Obligations.DatapathEqualsExactForm : Prop :=
  ∀ (c : Config) (d : Word), c.wf = true → positEncode c d = Exact.positEncode c d

/-- Sign application: the magnitude pattern, or its two's complement for a set sign bit; so the encoder is odd-symmetric
on finite non-zero words, and such a word never encodes to zero or to NaR (R95). -/
def Obligations.EncodeSignSymmetry : Prop :=
  ∀ (c : Config) (d : Word) (v : ℚ), c.wf = true → Binary64.val d = some v → v ≠ 0 →
    positEncode c d =
      (if Binary64.sign d then c.negBits (magnitudePattern c d).toNat else (magnitudePattern c d).toNat) ∧
    positEncode c (Binary64.neg d) = c.negBits (positEncode c d) ∧
    (0 < v → 1 ≤ positEncode c d ∧ positEncode c d ≤ 2 ^ (c.n - 1) - 1) ∧
    (v < 0 → 2 ^ (c.n - 1) + 1 ≤ positEncode c d ∧ positEncode c d ≤ 2 ^ c.n - 1)

/-- Inside the encoder the degenerate clause and the correction never act, and its result does not depend on
`RU_BUDGET` (R107, the spec's own inference). -/
def Obligations.SpecialClausesNeverActInEncoder : Prop :=
  (∀ (c : Config) (k : Int) (e f : Nat), c.wf = true → regimeInRange c k = true → e < 2 ^ c.es → f < 2 ^ 52 →
    image64 c k e f ≠ halfUlp c ∧ roundImage c (image64 c k e f) k = roundNearestEven c (image64 c k e f)) ∧
  ∀ (c : Config) (d : Word) (budget : Nat), c.wf = true → c.n - 1 ≤ budget →
    positEncode { c with ruBudget := budget } d = positEncode c d

/-- The rounding unit on its own, for an image that spells `k` with `|k| < kmax`, at `RU_BUDGET = n`: the table of R105, the spec's own
inference, its hazard at `k = n-1` included. The premise on `RU_BUDGET` is the rule's own (log 13). -/
def Obligations.RoundingUnitTable : Prop :=
  ∀ (c : Config) (k : Int) (e f : Nat), c.wf = true → c.ruBudget = c.n → k.natAbs < c.kmax → e < 2 ^ c.es → f < 2 ^ 52 →
    let p := roundImage c (image64 c k e f) k
    (-((c.n : Int) - 2) ≤ k → k ≤ (c.n : Int) - 3 → p = Exact.rounded c k e f ∧ 1 ≤ p ∧ p ≤ 2 ^ (c.n - 1) - 1) ∧
    (k = (c.n : Int) - 2 → p = 2 ^ (c.n - 1) - 1) ∧
    (k = (c.n : Int) - 1 → p = 2 ^ (c.n - 1)) ∧
    ((c.n : Int) ≤ k → p = 2 ^ (c.n - 1) - 1) ∧
    (k ≤ -((c.n : Int) - 1) → p = 1)

/-- The rounding unit used on its own answers inside the encoder's range of `k` and is refused outside it. Refusing every
use outside the range is the model's choice (log 13): R152 refuses such a use only where a claim would depend on
`RU_BUDGET`. -/
def Obligations.StandaloneRoundingUnitRange : Prop :=
  ∀ (c : Config) (img : Word) (k : Int),
    (-((c.n : Int) - 2) ≤ k ∧ k ≤ (c.n : Int) - 3 → useRoundingUnit c img k = .next (roundImage c img k)) ∧
    (¬(-((c.n : Int) - 2) ≤ k ∧ k ≤ (c.n : Int) - 3) → useRoundingUnit c img k = .refused .roundingUnitBudget)

/-! The codec as a whole. -/

/-- Round trip: encoding the decoded word of any pattern of any supported format gives the pattern back, zero and NaR
included (R130). -/
def Obligations.EncodeDecodeRoundTrip : Prop :=
  ∀ (c : Config) (p : Nat), c.wf = true → p < 2 ^ c.n → positEncode c (positDecodeF64 c p) = p

/-- Reading the value of `BITS` and writing it back leaves `BITS` as it was, by the commands themselves (R74, R97,
R130). -/
def Obligations.GetvalThenSetvalKeepsBits : Prop :=
  ∀ (s : State) (a : Word), s.Inv → ∃ (t u : State) (r : Word),
    exec (.getval a) s = .next t ∧ t.res = some r ∧ exec (.setval r) t = .next u ∧ u.bits = s.bits

/-- NaR is in band: a word encodes to NaR exactly if it is an infinity or a NaN, the NaR pattern decodes to a NaN, and
ISNAR after SETVAL tells which it was (R83, R62, R143). -/
def Obligations.NarIsInBand : Prop :=
  ∀ (s : State) (d a : Word), s.cfg.wf = true →
    (positEncode s.cfg d = 2 ^ (s.cfg.n - 1) ↔ Binary64.val d = none) ∧
    Binary64.isNaN (positDecodeF64 s.cfg (2 ^ (s.cfg.n - 1))) = true ∧
    ∃ t u : State, exec (.setval d) s = .next t ∧ exec (.isnar a) t = .next u ∧
      u.res = some (if Binary64.val d = none then 1#64 else 0#64)

/-! The host side: the digit string, the pseudo-commands, the arithmetic layer. -/

/-- The binary digit string has exactly `n` characters, most significant bit first, each the digit of its bit (R54). -/
def Obligations.BinStrIsFixedWidth : Prop :=
  ∀ (c : Config) (p : Nat), (binStr c p).length = c.n ∧
    ∀ j, j < c.n → (binStr c p).toList[c.n - 1 - j]? = some (if p.testBit j then '1' else '0')

/-- The pseudo-commands: CLEAR is `SETBITS 0x0` and leaves `BITS = 0`, SETNAR is `SETBITS NAR` and leaves
`BITS = 2^(n-1)`, whatever results there are (R44). -/
def Obligations.PseudoCommandsExpand : Prop :=
  ∀ (s : State) (results : List Word), s.cfg.wf = true →
    ∃ (v w : CmdWord) (t u : State),
      (AsmLine.mk .clear none).assemble s.cfg results = some v ∧ decode v = .setbits 0#64 ∧
      step (presentWord s v) = .next t ∧ t.bits = 0 ∧
      (AsmLine.mk .setnar none).assemble s.cfg results = some w ∧
      decode w = .setbits (BitVec.ofNat 64 (2 ^ (s.cfg.n - 1))) ∧
      step (presentWord s w) = .next u ∧ u.bits = 2 ^ (s.cfg.n - 1)

/-- The format guard: operands of different `(n, es)` fail with FormatMismatch in every binary operation and every
comparison (R121, R142); operands of one format never do, and an operation's result has their `(n, es)` (R120). -/
def Obligations.FormatGuardPrecedesEveryBinaryOperation : Prop :=
  ∀ (op : HostBinary) (a b : Posit),
    (¬(a.cfg.n = b.cfg.n ∧ a.cfg.es = b.cfg.es) →
      Posit.binary op a b = .fault .formatMismatch ∧ Posit.equal a b = .fault .formatMismatch ∧
      Posit.notEqual a b = .fault .formatMismatch ∧ Posit.less a b = .fault .formatMismatch ∧
      Posit.lessEq a b = .fault .formatMismatch ∧ Posit.greater a b = .fault .formatMismatch ∧
      Posit.greaterEq a b = .fault .formatMismatch) ∧
    (a.cfg.n = b.cfg.n ∧ a.cfg.es = b.cfg.es →
      (∃ x : Posit, Posit.binary op a b = .next x ∧ x.cfg.n = a.cfg.n ∧ x.cfg.es = a.cfg.es) ∧
      (∃ x, Posit.equal a b = .next x) ∧ (∃ x, Posit.notEqual a b = .next x) ∧ (∃ x, Posit.less a b = .next x) ∧
      (∃ x, Posit.lessEq a b = .next x) ∧ (∃ x, Posit.greater a b = .next x) ∧ ∃ x, Posit.greaterEq a b = .next x)

/-- Negation by decoding, negating and encoding is the two's complement of the pattern; zero and NaR are their own
negations; unary identity returns its operand (R123). That binary64 negation flips bit 63 is general knowledge
(log 21); that negation keeps the open parameters beside `(n, es)` is the model's choice (log 24). -/
def Obligations.NegationIsTwosComplement : Prop :=
  ∀ a : Posit, a.cfg.wf = true → a.bits < 2 ^ a.cfg.n →
    a.neg.bits = a.cfg.negBits a.bits ∧ a.neg.cfg = a.cfg ∧
    (a.bits = 0 ∨ a.bits = 2 ^ (a.cfg.n - 1) → a.neg.bits = a.bits) ∧ a.identity = a

/-- NaR through the arithmetic: any operation with a NaR operand yields NaR, and so do a division by zero and the square
root of a negative value (R125). What the host computes otherwise is uninterpreted (log 17). -/
def Obligations.NarAbsorbsArithmetic : Prop :=
  ∀ a b : Posit, a.cfg.wf = true → b.cfg.wf = true → sameFormat a b = true → a.bits < 2 ^ a.cfg.n → b.bits < 2 ^ b.cfg.n →
    (a.bits = a.cfg.narBits ∨ b.bits = b.cfg.narBits →
      ∀ op : HostBinary, ∃ x : Posit, Posit.binary op a b = .next x ∧ x.bits = a.cfg.narBits) ∧
    (a.bits = a.cfg.narBits → ∀ op : HostUnary, (Posit.unary op a).bits = a.cfg.narBits) ∧
    (b.bits = 0 → ∃ x : Posit, Posit.binary .div a b = .next x ∧ x.bits = a.cfg.narBits) ∧
    (∀ v : ℚ, (positDecode a.cfg a.bits).real = some v → v < 0 →
      (Posit.unary .sqrt a).bits = a.cfg.narBits)

/-- The four operators are exact wherever `F64` of the real result is defined, that is where it is zero or exactly a normal
binary64 number: the result is the posit of that number (R36, R122). The host's operations are otherwise uninterpreted, on
an exact subnormal outcome too (log 17, log 25). -/
def Obligations.ExactOperatorsEncodeTheRealResult : Prop :=
  ∀ (a b : Posit) (x y v : ℚ) (w : Word) (op : HostBinary), a.cfg.wf = true → b.cfg.wf = true → sameFormat a b = true →
    a.bits < 2 ^ a.cfg.n → b.bits < 2 ^ b.cfg.n →
    (positDecode a.cfg a.bits).real = some x → (positDecode b.cfg b.bits).real = some y →
    (op = .add ∧ v = x + y ∨ op = .sub ∧ v = x - y ∨ op = .mul ∧ v = x * y ∨ op = .div ∧ y ≠ 0 ∧ v = x / y) →
    Binary64.f64 v = some w → ∃ z : Posit, Posit.binary op a b = .next z ∧ z.bits = Exact.positEncode a.cfg w

/-- Equality is bit for bit, so NaR equals NaR, and `!=` is its negation (R126). -/
def Obligations.EqualityIsBitwise : Prop :=
  ∀ a b : Posit, sameFormat a b = true →
    Posit.equal a b = .next (decide (a.bits = b.bits)) ∧ Posit.notEqual a b = .next (decide (a.bits ≠ b.bits))

/-- The order of two posits that are not NaR is the order of their patterns read as signed integers (R127, by the spec's
own inference R70). -/
def Obligations.OrderIsSignedPatternOrder : Prop :=
  ∀ a b : Posit, a.cfg.wf = true → b.cfg.wf = true → sameFormat a b = true → a.bits < 2 ^ a.cfg.n → b.bits < 2 ^ b.cfg.n →
    a.bits ≠ a.cfg.narBits → b.bits ≠ b.cfg.narBits →
    Posit.less a b = .next (decide (a.cfg.signedBits a.bits < b.cfg.signedBits b.bits)) ∧
    Posit.lessEq a b = .next (decide (a.cfg.signedBits a.bits ≤ b.cfg.signedBits b.bits)) ∧
    Posit.greater a b = .next (decide (b.cfg.signedBits b.bits < a.cfg.signedBits a.bits)) ∧
    Posit.greaterEq a b = .next (decide (b.cfg.signedBits b.bits ≤ a.cfg.signedBits a.bits))

/-- The open parameters (NAN_CANON, RU_BUDGET, INIT_VALUE) of the result of a two-operand operation are those of its left
operand: the model's choice (log 24), since R120 fixes the `(n, es)` of the result alone. -/
def Obligations.BinaryResultTakesLeftParameters : Prop :=
  ∀ (op : HostBinary) (a b : Posit), sameFormat a b = true → ∃ x : Posit, Posit.binary op a b = .next x ∧ x.cfg = a.cfg
end

