-- ==== Sys2Proof/Laws/Binary64.lean ====
section
/-! SUPPORT. The fields of a binary64 word: their bounds, a word from its fields and the fields of an assembled word. -/

namespace Sys2Proof.Machine.Binary64

theorem expo_lt (d : Word) : expo d < 2048 := (d.extractLsb' 52 11).isLt

theorem frac_lt (d : Word) : frac d < 2 ^ 52 := (d.extractLsb' 0 52).isLt

theorem expo_eq (d : Word) : expo d = d.toNat / 2 ^ 52 % 2 ^ 11 := by
  simp [expo, Nat.shiftRight_eq_div_pow]

theorem frac_eq (d : Word) : frac d = d.toNat % 2 ^ 52 := by
  simp [frac]

/-- The bits of an assembled word: fraction, exponent and sign field, from bit 0 up (R36). -/
theorem assemble_bit (s : Bool) (x : Int) (f i : Nat) :
    (assemble s x f).getLsbD i =
      if i < 52 then (BitVec.ofNat 52 f).getLsbD i
      else if i - 52 < 11 then (BitVec.ofInt 11 (x + 1023)).getLsbD (i - 52)
      else (BitVec.ofBool s).getLsbD (i - 52 - 11) := by
  have h1 := BitVec.getLsbD_append (x := BitVec.ofBool s ++ BitVec.ofInt 11 (x + 1023)) (y := BitVec.ofNat 52 f) (i := i)
  have h2 := BitVec.getLsbD_append (x := BitVec.ofBool s) (y := BitVec.ofInt 11 (x + 1023)) (i := i - 52)
  rw [h2] at h1
  exact h1

theorem sign_assemble (s : Bool) (x : Int) (f : Nat) : sign (assemble s x f) = s := by
  simp only [sign, assemble_bit]
  simp

theorem expo_assemble {s : Bool} {x : Int} {f : Nat} (h1 : -1023 ≤ x) (h2 : x ≤ 1024) :
    (expo (assemble s x f) : Int) = x + 1023 := by
  have h : (assemble s x f).extractLsb' 52 11 = BitVec.ofInt 11 (x + 1023) := by
    apply BitVec.eq_of_getLsbD_eq
    intro i hi
    simp only [BitVec.getLsbD_extractLsb', assemble_bit, hi]
    simp [hi]
  rw [expo, h, BitVec.toNat_ofInt]
  omega

theorem frac_assemble {s : Bool} {x : Int} {f : Nat} (h : f < 2 ^ 52) : frac (assemble s x f) = f := by
  have h' : (assemble s x f).extractLsb' 0 52 = BitVec.ofNat 52 f := by
    apply BitVec.eq_of_getLsbD_eq
    intro i hi
    simp only [BitVec.getLsbD_extractLsb', assemble_bit, hi]
    simp [hi]
  rw [frac, h', BitVec.toNat_ofNat, Nat.mod_eq_of_lt h]

/-- The value of an assembled normal word (R35, R36). -/
theorem val_assemble {s : Bool} {x : Int} {f : Nat} (h1 : -1022 ≤ x) (h2 : x ≤ 1023) (hf : f < 2 ^ 52) :
    val (assemble s x f) = some (signFactor s * (1 + (f : ℚ) / 2 ^ 52) * 2 ^ x) := by
  have he := expo_assemble (s := s) (f := f) (x := x) (by omega) (by omega)
  have hn : expo (assemble s x f) ≠ 2047 := by omega
  have h0 : expo (assemble s x f) ≠ 0 := by omega
  simp only [val, if_neg hn, if_neg h0, sign_assemble, frac_assemble hf, he]
  congr 3
  omega

end Sys2Proof.Machine.Binary64
end

