-- ==== Sys2Proof/Laws/Params.lean ====
section
/-! SUPPORT. What legal parameters give (R4), and the bounds of the `n`-bit operations. -/

namespace Sys2Proof.Config

theorem wf_iff {c : Config} : c.wf = true ↔
    Machine.supported c.n c.es = true ∧ c.nanCanonOk = true ∧ c.ruBudgetOk = true := by
  simp [Config.wf, and_assoc]

theorem wf_bounds {c : Config} (h : c.wf = true) : 5 ≤ c.n ∧ c.n ≤ 32 ∧ c.bigT ≤ 1022 := by
  have := (wf_iff.mp h).1
  simpa [Machine.supported, bigT] using this

theorem wf_es {c : Config} (h : c.wf = true) : c.es ≤ 8 := by
  obtain ⟨h5, -, hT⟩ := wf_bounds h
  by_contra hes
  have h1 : 2 ^ 9 ≤ 2 ^ c.es := Nat.pow_le_pow_right (by norm_num) (by omega)
  have h2 : 2 ^ 9 * 3 ≤ 2 ^ c.es * (c.n - 2) := Nat.mul_le_mul h1 (by omega)
  simp only [bigT] at hT
  omega

theorem wf_nan {c : Config} (h : c.wf = true) : Machine.Binary64.isNaN c.nanCanon = true := (wf_iff.mp h).2.1

theorem wf_budget {c : Config} (h : c.wf = true) : c.n - 1 ≤ c.ruBudget := by
  simpa [ruBudgetOk] using (wf_iff.mp h).2.2

theorem maskBits_lt (c : Config) (v : Nat) : c.maskBits v < 2 ^ c.n := Nat.mod_lt _ (by positivity)

theorem negBits_lt (c : Config) (v : Nat) : c.negBits v < 2 ^ c.n := Nat.mod_lt _ (by positivity)

theorem negBits_zero (c : Config) : c.negBits 0 = 0 := by simp [negBits]

theorem negBits_of_pos {c : Config} {v : Nat} (h0 : 0 < v) (h : v < 2 ^ c.n) : c.negBits v = 2 ^ c.n - v :=
  Nat.mod_eq_of_lt (by omega)

theorem two_pow_n {c : Config} (h : 1 ≤ c.n) : 2 ^ c.n = 2 * 2 ^ (c.n - 1) := by
  rw [← pow_succ', Nat.sub_add_cancel h]

theorem narBits_lt {c : Config} (h : 1 ≤ c.n) : c.narBits < 2 ^ c.n := by
  have := two_pow_n h
  have : 0 < 2 ^ (c.n - 1) := by positivity
  simp only [narBits]; omega

end Sys2Proof.Config

namespace Sys2Proof.Machine

theorem applySign_lt (c : Config) (s : Bool) (p : Int) : applySign c s p < 2 ^ c.n := by
  have h : (0 : Int) < 2 ^ c.n := by positivity
  have h1 := Int.emod_lt_of_pos (if s then -p else p) h
  have h2 := Int.emod_nonneg (if s then -p else p) h.ne'
  have h3 : ((2 ^ c.n : Nat) : Int) = 2 ^ c.n := by push_cast; rfl
  simp only [applySign]
  omega

theorem positEncode_lt {c : Config} (h : 1 ≤ c.n) (d : Word) : positEncode c d < 2 ^ c.n := by
  unfold positEncode
  split
  · simp [Config.zeroBits]
  · split
    · exact Config.narBits_lt h
    · exact applySign_lt _ _ _

end Sys2Proof.Machine
end

