-- ==== Sys2Proof/Laws/Codec.lean ====
section
/-! SUPPORT. Small lemmas of the decoder's and the encoder's parts. -/

namespace Sys2Proof.Machine

theorem runLength_le (p : Nat) (b : Bool) (j : Nat) : runLength p b j ≤ j := by
  induction j with
  | zero => simp [runLength]
  | succ j ih => unfold runLength; split <;> omega

/-- Every bit of the run equals `b`. -/
theorem runLength_bits {p : Nat} {b : Bool} {j i : Nat} (h : i < runLength p b j) : p.testBit (j - 1 - i) = b := by
  induction j generalizing i with
  | zero => simp [runLength] at h
  | succ j ih =>
    unfold runLength at h
    split at h
    · rename_i hb
      cases i with
      | zero => simpa using hb
      | succ i =>
        have := ih (i := i) (by omega)
        rwa [show j + 1 - 1 - (i + 1) = j - 1 - i by omega]
    · omega

/-- The bit after the run, where there is one, is the terminator. -/
theorem runLength_stops {p : Nat} {b : Bool} {j : Nat} (h : runLength p b j < j) :
    p.testBit (j - 1 - runLength p b j) ≠ b := by
  induction j with
  | zero => omega
  | succ j ih =>
    unfold runLength at h ⊢
    by_cases hb : p.testBit j = b
    · simp only [hb, if_true] at h ⊢
      have := ih (by omega)
      rwa [show j + 1 - 1 - (runLength p b j + 1) = j - 1 - runLength p b j by omega]
    · simp [hb]

theorem bitSlice_lt (v lo w : Nat) : bitSlice v lo w < 2 ^ w := Nat.mod_lt _ (by positivity)

theorem bitSlice_testBit (v lo w j : Nat) :
    (bitSlice v lo w).testBit j = (decide (j < w) && v.testBit (lo + j)) := by
  simp [bitSlice, Nat.testBit_mod_two_pow, Nat.testBit_div_two_pow, Nat.add_comm]

@[simp] theorem positDecode_zero (c : Config) : positDecode c 0 = .zero := by simp [positDecode]

@[simp] theorem positDecodeF64_zero (c : Config) : positDecodeF64 c 0 = 0#64 := by simp [positDecodeF64]

theorem narBits_ne_zero (c : Config) : c.narBits ≠ 0 := by simp [Config.narBits]

@[simp] theorem positDecode_nar (c : Config) : positDecode c c.narBits = .nar := by
  simp [positDecode, narBits_ne_zero]

@[simp] theorem positDecodeF64_nar (c : Config) : positDecodeF64 c c.narBits = c.nanCanon := by
  simp [positDecodeF64, narBits_ne_zero]

theorem positDecode_fields {c : Config} {p : Nat} (h0 : p ≠ 0) (h1 : p ≠ c.narBits) :
    positDecode c p = .finite (closedForm c (positFields c p)) := by simp [positDecode, h0, h1]

theorem positDecodeF64_fields {c : Config} {p : Nat} (h0 : p ≠ 0) (h1 : p ≠ c.narBits) :
    positDecodeF64 c p = fieldsF64 c (positFields c p) := by simp [positDecodeF64, h0, h1]

/-- The arithmetic shift of R87 is the floor of R108. -/
theorem regimeIndex_eq (c : Config) (x : Int) : regimeIndex c x = x / 2 ^ c.es := by
  simp [regimeIndex, Int.shiftRight_eq_div_pow]

/-- The exponent field is the remainder that matches the floor (R87). -/
theorem exponentPart_eq (c : Config) (x : Int) : (exponentPart c x : Int) = x % 2 ^ c.es := by
  have h : (0 : Int) < 2 ^ c.es := by positivity
  have h1 := Int.emod_nonneg x h.ne'
  have h2 := Int.mul_ediv_add_emod x (2 ^ c.es)
  have h3 : x - x / 2 ^ c.es * 2 ^ c.es = x % 2 ^ c.es := by rw [Int.mul_comm (x / 2 ^ c.es)]; omega
  rw [exponentPart, regimeIndex_eq, h3]
  omega

/-- A word of class zero has the value zero and no other finite word has (R35). -/
theorem val_eq_zero_iff (d : Word) :
    Binary64.val d = some 0 ↔ Binary64.expo d = 0 ∧ Binary64.frac d = 0 := by
  have hs : Binary64.signFactor (Binary64.sign d) ≠ 0 := by
    unfold Binary64.signFactor; split <;> norm_num
  unfold Binary64.val
  by_cases h1 : Binary64.expo d = 2047
  · simp [h1]
  · by_cases h2 : Binary64.expo d = 0
    · have : (2 : ℚ) ^ (-1074 : ℤ) ≠ 0 := by positivity
      simp [h2, hs]
    · have h3 : (2 : ℚ) ^ ((Binary64.expo d : ℤ) - 1023) ≠ 0 := by positivity
      have h4 : (1 + (Binary64.frac d : ℚ) / 2 ^ 52) ≠ 0 := by positivity
      simp [h1, h2, hs, h3, h4]

theorem val_eq_none_iff (d : Word) : Binary64.val d = none ↔ Binary64.expo d = 2047 := by
  unfold Binary64.val
  by_cases h1 : Binary64.expo d = 2047
  · simp [h1]
  · by_cases h2 : Binary64.expo d = 0 <;> simp [h1, h2]

/-- The number a list of bits spells, one bit at a time from the left. -/
theorem Exact.ofMsbFirst_append (l : List Bool) (b : Bool) :
    Exact.ofMsbFirst (l ++ [b]) = 2 * Exact.ofMsbFirst l + b.toNat := by simp [Exact.ofMsbFirst]

@[simp] theorem Exact.msbFirst_length (v w : Nat) : (Exact.msbFirst v w).length = w := by
  induction w with
  | zero => rfl
  | succ w ih => simp [Exact.msbFirst, ih]

theorem Exact.msbFirst_getElem? {v w j : Nat} (h : j < w) :
    (Exact.msbFirst v w)[j]? = some (v.testBit (w - 1 - j)) := by
  induction w generalizing j with
  | zero => omega
  | succ w ih =>
    cases j with
    | zero => simp [Exact.msbFirst]
    | succ j =>
      have := ih (j := j) (by omega)
      simp only [Exact.msbFirst, List.getElem?_cons_succ, this]
      congr 2
      omega

/-- The length of the regime field: `k + 2` or `-k + 1` (R31). -/
theorem Exact.regimeField_length (k : Int) :
    ((Exact.regimeField k).length : Int) = if 0 ≤ k then k + 2 else -k + 1 := by
  unfold Exact.regimeField
  split <;> simp <;> omega

end Sys2Proof.Machine
end

