-- ==== Sys2Proof/Laws/State.lean ====
section
/-! SUPPORT. One lemma per field per update of the state, so that no later proof unfolds a record update. -/

namespace Sys2Proof.Machine

@[simp] theorem State.readBits_eq (s : State) : s.readBits = s.bits := rfl

@[simp] theorem State.writeBits_cfg (s : State) (p : Nat) : (s.writeBits p).cfg = s.cfg := rfl
@[simp] theorem State.writeBits_bits (s : State) (p : Nat) : (s.writeBits p).bits = p := rfl
@[simp] theorem State.writeBits_res (s : State) (p : Nat) : (s.writeBits p).res = s.res := rfl
@[simp] theorem State.writeBits_pending (s : State) (p : Nat) : (s.writeBits p).pending = s.pending := rfl

@[simp] theorem State.respond_cfg (s : State) (r : Word) : (s.respond r).cfg = s.cfg := rfl
@[simp] theorem State.respond_bits (s : State) (r : Word) : (s.respond r).bits = s.bits := rfl
@[simp] theorem State.respond_res (s : State) (r : Word) : (s.respond r).res = some r := rfl
@[simp] theorem State.respond_pending (s : State) (r : Word) : (s.respond r).pending = s.pending := rfl

@[simp] theorem State.constructed_cfg (c : Config) : (State.constructed c).cfg = c := rfl
@[simp] theorem State.constructed_bits (c : Config) : (State.constructed c).bits = positEncode c c.initValue := rfl
@[simp] theorem State.constructed_res (c : Config) : (State.constructed c).res = none := rfl
@[simp] theorem State.constructed_pending (c : Config) : (State.constructed c).pending = [] := rfl

@[simp] theorem State.reconstruct_cfg (s : State) : s.reconstruct.cfg = s.cfg := rfl
@[simp] theorem State.reconstruct_bits (s : State) : s.reconstruct.bits = positEncode s.cfg s.cfg.initValue := rfl
@[simp] theorem State.reconstruct_res (s : State) : s.reconstruct.res = none := rfl
@[simp] theorem State.reconstruct_pending (s : State) : s.reconstruct.pending = s.pending := rfl

@[simp] theorem State.issue_cfg (s : State) (e : HostEvent) : (s.issue e).cfg = s.cfg := rfl
@[simp] theorem State.issue_bits (s : State) (e : HostEvent) : (s.issue e).bits = s.bits := rfl
@[simp] theorem State.issue_res (s : State) (e : HostEvent) : (s.issue e).res = s.res := rfl
@[simp] theorem State.issue_pending (s : State) (e : HostEvent) : (s.issue e).pending = s.pending ++ [e] := rfl

@[simp] theorem presentWord_cfg (s : State) (w : CmdWord) : (presentWord s w).cfg = s.cfg := rfl
@[simp] theorem presentWord_bits (s : State) (w : CmdWord) : (presentWord s w).bits = s.bits := rfl
@[simp] theorem presentWord_res (s : State) (w : CmdWord) : (presentWord s w).res = s.res := rfl
@[simp] theorem presentWord_pending (s : State) (w : CmdWord) :
    (presentWord s w).pending = .command w :: s.pending := rfl

theorem fetch_nil {s : State} (h : s.pending = []) : fetch s = none := by simp [fetch, h]

theorem fetch_cons {s : State} {e : HostEvent} {rest : List HostEvent} (h : s.pending = e :: rest) :
    fetch s = some (e, { s with pending := rest }) := by simp [fetch, h]

@[simp] theorem fetch_presentWord (s : State) (w : CmdWord) : fetch (presentWord s w) = some (.command w, s) := rfl

end Sys2Proof.Machine
end

