-- ==== Sys2Proof/Laws/Ops.lean ====
section
/-! SUPPORT. One lemma per shared operation: everything it can do. -/

namespace Sys2Proof.Machine

@[simp] theorem answer_next_iff {s t : State} {r : Word} : answer s r = .next t ↔ t = s.respond r := by
  simp [answer, eq_comm]

@[simp] theorem store_next_iff {s t : State} {p : Nat} :
    store s p = .next t ↔ t = (s.writeBits p).respond (rawResult p) := by
  simp [store, eq_comm]

@[simp] theorem raise_eq {α : Type} (e : Fault) : (raise e : Host.Outcome α Fault Refusal) = .fault e := rfl

theorem rawResult_toNat {p : Nat} (h : p < 2 ^ 64) : (rawResult p).toNat = p := by
  simpa [rawResult] using h

theorem integerResult_toNat {v : Nat} (h : v < 2 ^ 64) : (integerResult v).toNat = v := by
  simpa [integerResult] using h

/-- What construction can do (R160). -/
theorem construct_cases (n es : Int) (init nan : Word) (ru : Nat) :
    ((n < 5 ∨ es < 0) ∧ construct n es init nan ru = .fault .invalidConstruction) ∨
    (¬(n < 5 ∨ es < 0) ∧ supported n.toNat es.toNat = false ∧
      construct n es init nan ru = .refused .unsupportedFormat) ∨
    (¬(n < 5 ∨ es < 0) ∧ supported n.toNat es.toNat = true ∧
      construct n es init nan ru = .next (State.constructed
        { n := n.toNat, es := es.toNat, nanCanon := nan, ruBudget := ru, initValue := init })) := by
  unfold construct
  by_cases h : n < 5 ∨ es < 0
  · simp [h]
  · cases hs : supported n.toNat es.toNat <;> simp [h]

/-- What the format guard can do (R121). -/
theorem formatGuard_cases {α : Type} (a b : Posit) (x : α) :
    (sameFormat a b = true ∧ formatGuard a b x = .next x) ∨
    (sameFormat a b = false ∧ formatGuard a b x = .fault .formatMismatch) := by
  cases h : sameFormat a b <;> simp [formatGuard, h]

theorem sameFormat_iff {a b : Posit} : sameFormat a b = true ↔ a.cfg.n = b.cfg.n ∧ a.cfg.es = b.cfg.es := by
  simp [sameFormat]

theorem formatGuard_same {α : Type} {a b : Posit} (h : sameFormat a b = true) (x : α) :
    formatGuard a b x = .next x := by simp [formatGuard, h]

theorem formatGuard_differ {α : Type} {a b : Posit} (h : sameFormat a b = false) (x : α) :
    formatGuard a b x = .fault .formatMismatch := by simp [formatGuard, h]

end Sys2Proof.Machine
end

