-- ==== Sys2Proof/Laws/Exec.lean ====
section
/-! SUPPORT. What each command does, as an equation, and what a step can do, said once. -/

namespace Sys2Proof.Machine

theorem exec_getbits (a : Word) (s : State) : exec (.getbits a) s = .next (s.respond (rawResult s.bits)) := rfl

theorem exec_setbits (a : Word) (s : State) :
    exec (.setbits a) s = .next ((s.writeBits (rawOperand s.cfg a)).respond (rawResult (rawOperand s.cfg a))) := rfl

theorem exec_getval (a : Word) (s : State) :
    exec (.getval a) s = .next (s.respond (positDecodeF64 s.cfg s.bits)) := rfl

theorem exec_setval (a : Word) (s : State) :
    exec (.setval a) s = .next ((s.writeBits (positEncode s.cfg a)).respond (rawResult (positEncode s.cfg a))) := rfl

theorem exec_isnar (a : Word) (s : State) :
    exec (.isnar a) s = .next (s.respond (integerResult (narQuery s.cfg s.bits))) := rfl

theorem exec_getwidth (a : Word) (s : State) : exec (.getwidth a) s = .next (s.respond (integerResult s.cfg.n)) := rfl

theorem exec_dec (a : Word) (s : State) :
    exec (.dec a) s = .next (s.respond (positDecodeF64 s.cfg (rawOperand s.cfg a))) := rfl

theorem exec_enc (a : Word) (s : State) :
    exec (.enc a) s = .next (s.respond (rawResult (positEncode s.cfg a))) := rfl

/-- What a command can do: drive a result, after writing `BITS` or without writing it. -/
theorem exec_cases (i : Instr) (s : State) :
    (∃ r, exec i s = .next (s.respond r)) ∨
    (∃ a, i = .setbits a ∧
      exec i s = .next ((s.writeBits (rawOperand s.cfg a)).respond (rawResult (rawOperand s.cfg a)))) ∨
    (∃ a, i = .setval a ∧
      exec i s = .next ((s.writeBits (positEncode s.cfg a)).respond (rawResult (positEncode s.cfg a)))) := by
  cases i with
  | getbits a => exact .inl ⟨_, exec_getbits a s⟩
  | setbits a => exact .inr (.inl ⟨a, rfl, exec_setbits a s⟩)
  | getval a => exact .inl ⟨_, exec_getval a s⟩
  | setval a => exact .inr (.inr ⟨a, rfl, exec_setval a s⟩)
  | isnar a => exact .inl ⟨_, exec_isnar a s⟩
  | getwidth a => exact .inl ⟨_, exec_getwidth a s⟩
  | dec a => exact .inl ⟨_, exec_dec a s⟩
  | enc a => exact .inl ⟨_, exec_enc a s⟩

/-- What a step can do. -/
theorem step_cases (s : State) :
    (s.pending = [] ∧ step s = .next s) ∨
    (∃ w rest, s.pending = .command w :: rest ∧ step s = exec (decode w) { s with pending := rest }) ∨
    (∃ rest, s.pending = .reset :: rest ∧ step s = .next { s with pending := rest }.reconstruct) ∨
    (∃ v w more rest, s.pending = .overlap v w more :: rest ∧ step s = .refused .overlappingCommands) := by
  rcases h : s.pending with _ | ⟨e, rest⟩
  · exact .inl ⟨rfl, by simp [step, performNext, fetch_nil h]⟩
  · cases e with
    | command w => exact .inr (.inl ⟨w, rest, rfl, by simp [step, performNext, perform, fetch_cons h]⟩)
    | reset => exact .inr (.inr (.inl ⟨rest, rfl, by simp [step, performNext, perform, fetch_cons h]⟩))
    | overlap v w more => exact .inr (.inr (.inr ⟨v, w, more, rest, rfl, by simp [step, performNext, perform, fetch_cons h]⟩))

end Sys2Proof.Machine
end

