-- ==== Sys2Proof/Laws/PerInstr.lean ====
section
/-! SUPPORT. The family `CommandFields`: the two fields of a command's word are its opcode and its operand (R37). -/

namespace Sys2Proof.Laws.CommandFields

/-- A command is well formed, and its word holds its opcode in bits 66:64 and its operand in bits 63:0. -/
def Statement (i : Instr) : Prop := i.wf = true ∧ opField (encode i) = opcode i ∧ argField (encode i) = i.arg

/-- The bits of a word laid out as `op` above `arg`. -/
theorem append_bit (o : BitVec 3) (a : Word) (i : Nat) :
    (o ++ a : CmdWord).getLsbD i = if i < 64 then a.getLsbD i else o.getLsbD (i - 64) := by
  have h := BitVec.getLsbD_append (x := o) (y := a) (i := i)
  simpa only [Bool.cond_eq_ite, decide_eq_true_eq] using h

theorem opField_append (o : BitVec 3) (a : Word) : opField (o ++ a) = o := by
  apply BitVec.eq_of_getLsbD_eq
  intro i hi
  simp only [opField, BitVec.getLsbD_extractLsb', append_bit, hi]
  simp

theorem argField_append (o : BitVec 3) (a : Word) : argField (o ++ a) = a := by
  apply BitVec.eq_of_getLsbD_eq
  intro i hi
  simp only [argField, BitVec.getLsbD_extractLsb', append_bit, hi]
  simp [hi]

theorem getbits (a : Word) : Statement (.getbits a) := ⟨rfl, opField_append _ _, argField_append _ _⟩
theorem setbits (a : Word) : Statement (.setbits a) := ⟨rfl, opField_append _ _, argField_append _ _⟩
theorem getval (a : Word) : Statement (.getval a) := ⟨rfl, opField_append _ _, argField_append _ _⟩
theorem setval (a : Word) : Statement (.setval a) := ⟨rfl, opField_append _ _, argField_append _ _⟩
theorem isnar (a : Word) : Statement (.isnar a) := ⟨rfl, opField_append _ _, argField_append _ _⟩
theorem getwidth (a : Word) : Statement (.getwidth a) := ⟨rfl, opField_append _ _, argField_append _ _⟩
theorem dec (a : Word) : Statement (.dec a) := ⟨rfl, opField_append _ _, argField_append _ _⟩
theorem enc (a : Word) : Statement (.enc a) := ⟨rfl, opField_append _ _, argField_append _ _⟩

end Sys2Proof.Laws.CommandFields
end

