-- ==== Sys2Proof/Tests/Slice0.lean ====
section
/-! SUPPORT. Tests and witnesses. Every expected value is the spec's: the operation map of R40, the vectors and programs
of `95_test_vectors.md` (their section named at each test), the examples of the rules. -/

namespace Sys2Proof.Tests

open Sys2Proof Sys2Proof.Machine

/-! Helpers: formats, and a small state. -/

abbrev p8 : Config := Config.ofFormat 8 0
abbrev p82 : Config := Config.ofFormat 8 2
abbrev p161 : Config := Config.ofFormat 16 1
abbrev p322 : Config := Config.ofFormat 32 2
abbrev p325 : Config := Config.ofFormat 32 5
abbrev p58 : Config := Config.ofFormat 5 8

/-- A state with the given parameters and content. -/
abbrev holding (c : Config) (bits : Nat) : State := { cfg := c, bits := bits, res := none, pending := [] }

/-- `BITS` and the result after one command. -/
abbrev after (i : Instr) (s : State) : Option (Nat × Option Word) := (stateOf (exec i s)).map fun t => (t.bits, t.res)

/-! WellFormed: an ill-formed term for each check, which the check refuses. -/

theorem test_wf_refuses_narrow_width : (Config.ofFormat 4 0).wf = false := by decide
theorem test_wf_refuses_wide_width : (Config.ofFormat 33 0).wf = false := by decide
theorem test_wf_refuses_large_range : (Config.ofFormat 10 7).wf = false := by decide
theorem test_wf_refuses_infinity_as_nan : ({ p8 with nanCanon := 0x7FF0000000000000#64 } : Config).wf = false := by decide
theorem test_wf_refuses_small_budget : ({ p8 with ruBudget := 6 } : Config).wf = false := by decide
theorem test_wf_accepts_largest_es : (Config.ofFormat 5 8).wf = true := by decide
theorem test_line_refuses_own_index : (AsmLine.mk .dec (some (.result 3))).wf 3 = false := by decide
theorem test_line_refuses_index_zero : (AsmLine.mk .dec (some (.negResult 0))).wf 3 = false := by decide
theorem test_line_refuses_wide_literal : (AsmLine.mk .setbits (some (.literal (2 ^ 64)))).wf 1 = false := by decide
theorem test_line_refuses_pseudo_operand : (AsmLine.mk .clear (some .nar)).wf 1 = false := by decide

/-! Decoding: words written out from R37 and R40, `op` in the top three bits. -/

theorem test_decode_getbits : decode (0b000#3 ++ 0b101#64) = .getbits 5#64 := by decide
theorem test_decode_setbits : decode (0b001#3 ++ 0x1FF#64) = .setbits 0x1FF#64 := by decide
theorem test_decode_getval : decode (0b010#3 ++ 0#64) = .getval 0#64 := by decide
theorem test_decode_setval : decode (0b011#3 ++ 0x4202A05F20000000#64) = .setval 0x4202A05F20000000#64 := by decide
theorem test_decode_isnar : decode (0b100#3 ++ 0x8000000000000000#64) = .isnar 0x8000000000000000#64 := by decide
theorem test_decode_getwidth : decode (0b101#3 ++ 1#64) = .getwidth 1#64 := by decide
theorem test_decode_dec : decode (0b110#3 ++ 0x180#64) = .dec 0x180#64 := by decide
theorem test_decode_enc : decode (0b111#3 ++ 0xFFF0000000000000#64) = .enc 0xFFF0000000000000#64 := by decide
theorem test_decode_program_word : decode 0x33F90000000000000#67 = .setval 0x3F90000000000000#64 := by decide
theorem test_encode_program_word : encode (.enc 0x400921FB54442D11#64) = 0x7400921FB54442D11#67 := by decide
theorem test_decodeTableWord : decodeTableWord 72 0x50000000000000000 = some (.getwidth 0#64) := by decide
theorem test_decodeTableWord_beyond : decodeTableWord 72 (2 ^ 67) = none := by decide
theorem test_decodeNat_rejects_by_name : decodeNat (2 ^ 67) = .error .beyondCommandWord := rfl
theorem test_rows_do_not_overlap :
    opRows.Pairwise (fun q r => q.mask &&& r.mask &&& (q.pattern ^^^ r.pattern) ≠ 0#67) := by decide

/-! One command on a small state: sections 4.1 and 5 of the vectors. -/

theorem test_getbits : after (.getbits 7#64) (holding p8 0x21) = some (0x21, some 0x21#64) := by decide
theorem test_setbits_masks : after (.setbits 0x1FF#64) (holding p8 0x21) = some (0xFF, some 0xFF#64) := by decide
theorem test_setbits_no_sign : after (.setbits 0xFFFFFFFFFFFFFF80#64) (holding p8 0x21) = some (0x80, some 0x80#64) := by
  decide
theorem test_getval : after (.getval 0#64) (holding p8 0x21) = some (0x21, some 0x3FE0800000000000#64) := by decide
theorem test_getval_nar : after (.getval 0#64) (holding p8 0x80) = some (0x80, some 0x7FF8000000000000#64) := by decide
theorem test_setval_clamps : after (.setval 0x4202A05F20000000#64) (holding p8 0x21) = some (0x7F, some 0x7F#64) := by
  decide
theorem test_setval_subnormal :
    after (.setval 0x8000000000000001#64) (holding p161 0xFFFF) = some (0xFFFF, some 0xFFFF#64) := by decide
theorem test_isnar_nar : after (.isnar 0#64) (holding p8 0x80) = some (0x80, some 1#64) := by decide
theorem test_isnar_minus_maxpos : after (.isnar 0#64) (holding p8 0x81) = some (0x81, some 0#64) := by decide
theorem test_getwidth : after (.getwidth 0#64) (holding p322 5) = some (5, some 0x20#64) := by decide
theorem test_dec_pure : after (.dec 0x7F#64) (holding p8 0x21) = some (0x21, some 0x4050000000000000#64) := by decide
theorem test_dec_masks : after (.dec 0x180#64) (holding p8 0x21) = some (0x21, some 0x7FF8000000000000#64) := by decide
theorem test_enc_pure : after (.enc 0x3FF0000000000000#64) (holding p8 0x21) = some (0x21, some 0x40#64) := by decide
theorem test_enc_negative : after (.enc 0xC00921FB54442D11#64) (holding p161 0) = some (0, some 0xA6DE#64) := by decide

/-! The codec: section 2 and 3 of the vectors. -/

theorem test_fields_cut_exponent : positFields p82 0b01111101 = ⟨false, true, 5, 4, 1, 2, 0, 0⟩ := by decide
theorem test_fields_raw_negative : positFields p8 0b10010111 = ⟨true, false, 2, -2, 0, 0, 4, 7⟩ := by decide
theorem test_decode_value : positDecode p82 0xB2 = .finite (-7 / 2) := by decide +kernel
theorem test_decodeF64_negative : positDecodeF64 p8 0b10110000 = 0xBFF8000000000000#64 := by decide
theorem test_decodeF64_largest_es : positDecodeF64 p58 0b10001 = 0xEFF0000000000000#64 := by decide
theorem test_val : Binary64.val 0xBFF8000000000000#64 = some (-3 / 2) := by decide +kernel
theorem test_f64 : Binary64.f64 (33 / 64) = some 0x3FE0800000000000#64 := by decide +kernel
theorem test_f64_undefined : Binary64.f64 (1 / 3) = none := by decide +kernel
theorem test_scratch : scratchWord p82 (-3) 2 0x0624DD2F1A9FC = 0x60624DD2F1A9FC00#64 := by decide
theorem test_image_sticky : image64 p322 19 1 0x2880000000003 = 0x7FFFF92880000001#64 := by decide
theorem test_encode_sticky : positEncode p322 0x44C2880000000003#64 = 0x7FFFF929 := by decide
theorem test_encode_tie_even : positEncode p82 0x4100000000000000#64 = 0x7C := by decide
theorem test_encode_tie_odd : positEncode p82 0x4120000000000000#64 = 0x7E := by decide
theorem test_encode_minus_zero : positEncode p8 0x8000000000000000#64 = 0 := by decide
theorem test_exact_sticky : Exact.positEncode p322 0x44C2880000000003#64 = 0x7FFFF929 := by decide +kernel
theorem test_exact_largest_es : Exact.positEncode p58 0x6BB0000000000000#64 = 0b01111 := by decide +kernel
theorem test_round_degenerate : roundImage p8 0x0080000000000000#64 (-7) = 1 := by decide
theorem test_round_hazard : roundImage p8 0x7F80000000000000#64 7 = 128 := by decide
theorem test_round_corrects : roundImage p8 0x7FC0000000000000#64 8 = 127 := by decide

/-! Step, construction, and the host side: sections 4.2, 4.3 and 5. -/

theorem test_step_runs_presented_word :
    (stateOf (step (State.reset.withFetchWord 72 0x33F90000000000000))).map (fun t => (t.bits, t.res)) = some (1, some 1#64) := by
  decide
theorem test_step_reset :
    (stateOf (step { holding p8 0x21 with pending := [.reset] })).map (·.bits) = some 0 := by decide
theorem test_construct_rounds :
    (stateOf (constructDefault 5 1 0x4014000000000000#64)).map (·.bits) = some 0b01100 := by decide
theorem test_construct_error_code : errorCode (constructDefault 3 (-2) 0#64) = some 1 := by decide
theorem test_construct_refuses : errorCode (constructDefault 18 6 0#64) = none := by decide
theorem test_add_scenario : (stateOf (Posit.binary .add ⟨p8, 0x01⟩ ⟨p8, 0x20⟩)).map (·.bits) = some 0x21 := by
  decide +kernel
theorem test_div_scenario : (stateOf (Posit.binary .div ⟨p8, 0x40⟩ ⟨p8, 0x00⟩)).map (·.bits) = some 0x80 := by
  decide +kernel
theorem test_sqrt_scenario : (Posit.unary .sqrt ⟨p8, 0xC0⟩).bits = 0x80 := by decide +kernel
theorem test_less_scenario : stateOf (Posit.less ⟨p8, 0xC0⟩ ⟨p8, 0x40⟩) = some true := by decide +kernel
theorem test_less_nar : stateOf (Posit.less ⟨p8, 0x80⟩ ⟨p8, 0x40⟩) = some false := by decide +kernel
theorem test_guard_code : errorCode (Posit.equal ⟨p8, 0x40⟩ ⟨p161, 0x40⟩) = some 2 := by decide
theorem test_binStr : binStr p8 0x21 = "00100001" := by decide
theorem test_binStr_pads : binStr (Config.ofFormat 5 0) 1 = "00001" := by decide
theorem test_parse_line : parseLine "SETBITS neg($1)  ; two's complement".toList = some ⟨.setbits, some (.negResult 1)⟩ := by
  decide +kernel
theorem test_parse_header : parseHeader "; PCU n=5 es=1 init=0x4014000000000000".toList = some ⟨5, 1, 0x4014000000000000⟩ := by
  decide +kernel
theorem test_parse_wide_literal : parseLine "SETBITS 0x10000000000000000".toList = none := by decide +kernel
theorem test_assemble_neg :
    (AsmLine.mk .setbits (some (.negResult 1))).assemble p161 [0x5922#64] = some 0x1000000000000A6DE#67 := by decide
theorem test_assemble_setnar : (AsmLine.mk .setnar none).assemble (Config.ofFormat 5 1) [] = some 0x10000000000000010#67 := by
  decide

/-! Witnesses: for every statement with hypotheses, a state and operands that meet all of them together, for each clause
at a boundary of its range. -/

theorem witness_CommandWordRoundTrip : (Instr.enc 0xFFFFFFFFFFFFFFFF#64).wf = true := by decide

theorem witness_StepPerformsOldestCommand :
    ({ holding p8 0 with pending := [.command 0x50000000000000000#67, .reset] } : State).pending =
      .command 0x50000000000000000#67 :: [.reset] := rfl

theorem witness_QuiescentStepChangesNothing : (holding p8 0x21).pending = [] := rfl

theorem witness_ResetEventRepeatsConstruction :
    p325.wf = true ∧ ({ holding p325 1 with pending := [.reset] } : State).pending = .reset :: [] := by decide

theorem witness_OverlappingCommandsRefused :
    ({ holding p8 0 with pending := [.overlap 0#67 1#67 []] } : State).pending = .overlap 0#67 1#67 [] :: [] := rfl

/-- For GetbitsReturnsPattern, IsnarComparesWithSentinel, GetvalReturnsBitsValue, GetvalThenSetvalKeepsBits. -/
theorem witness_state_invariant : (holding p8 0x80).Inv ∧ (holding p325 (2 ^ 32 - 1)).Inv ∧ (holding p58 0).Inv := by decide

/-- For SetbitsStoresLowBits, GetwidthReturnsN, DecReturnsOperandValue, EncReturnsExactPattern, SetvalStoresExactPattern,
NarIsInBand, PseudoCommandsExpand, DecodeExtremes, EncodeSpecialCases, DatapathEqualsExactForm. -/
theorem witness_legal_parameters : (holding p8 0).cfg.wf = true ∧ p325.wf = true ∧ p58.wf = true := by decide

theorem witness_CommandFrame : ∃ t, exec (.dec 1#64) (holding p8 0x21) = .next t ∧
    (∀ a, Instr.dec 1#64 ≠ .setbits a) ∧ ∀ a, Instr.dec 1#64 ≠ .setval a :=
  ⟨_, rfl, fun _ h => Instr.noConfusion h, fun _ h => Instr.noConfusion h⟩

theorem witness_IgnoredOperandBitsDoNotMatter :
    ∀ j, j < (holding p8 0).cfg.n → (0x1FF#64).getLsbD j = (0xFF#64).getLsbD j := by decide

theorem witness_CommandsAreIdempotent : ∃ t, exec (.setval 0x3FF0000000000000#64) (holding p8 0) = .next t := ⟨_, rfl⟩

theorem witness_ReadsSeeTheLatestWrite : (holding p8 0).cfg.wf = true ∧
    [Instr.isnar 0#64, .dec 1#64, .enc 2#64].all isReader = true := by decide

theorem witness_SingleIssueRunsNeverStop :
    ({ holding p8 0 with pending := [.command 0x10000000000000001#67, .reset] } : State).SingleIssue := by
  intro e he
  simp only [List.mem_cons, List.not_mem_nil, or_false] at he
  rcases he with rfl | rfl <;> trivial

theorem witness_InvariantAfterConstructionAndEveryStep : ∃ t, ({ holding p8 0xFF with pending := [.command 0x1FFFFFFFFFFFFFFFF#67] } : State).Inv ∧
    step { holding p8 0xFF with pending := [.command 0x1FFFFFFFFFFFFFFFF#67] } = .next t :=
  ⟨_, by decide, rfl⟩

theorem witness_ParametersNeverChange : ∃ t, step { holding p8 1 with pending := [.reset] } = .next t := ⟨_, rfl⟩

theorem witness_InstancesAreIndependent : ∃ t : State,
    ([holding p161 2, { holding p8 1 with pending := [.reset] }] : System)[1]? =
      some { holding p8 1 with pending := [.reset] } ∧
    step { holding p8 1 with pending := [.reset] } = .next t := ⟨_, rfl, rfl⟩

theorem witness_ConstructionSequence_invalid : ((4 : Int) < 5 ∨ (0 : Int) < 0) ∧ ((5 : Int) < 5 ∨ (-1 : Int) < 0) := by decide
theorem witness_ConstructionSequence_refused : (5 : Int) ≤ 33 ∧ (0 : Int) ≤ 0 ∧
    ¬((33 : Int) ≤ 32 ∧ 2 ^ (0 : Int).toNat * ((33 : Int) - 2) ≤ 1022) := by decide
theorem witness_ConstructionSequence_built : (5 : Int) ≤ 32 ∧ (0 : Int) ≤ 5 ∧ (32 : Int) ≤ 32 ∧
    2 ^ (5 : Int).toNat * ((32 : Int) - 2) ≤ 1022 ∧ Binary64.isNaN 0x7FF0000000000001#64 = true ∧
    (32 : Int).toNat - 1 ≤ 31 := by decide

theorem witness_DefaultConstructionIsZero : p325.initValue = 0#64 := rfl

/-- For RegimeRunIsMaximal, ExponentAndFractionFields, DecodeSignSymmetry: the shortest and the longest runs. -/
theorem witness_finite_patterns : p325.wf = true ∧ isFinitePattern p325 1 = true ∧ isFinitePattern p325 (2 ^ 31 - 1) = true ∧
    isFinitePattern p325 (2 ^ 31 + 1) = true ∧ isFinitePattern p325 (2 ^ 32 - 1) = true ∧
    isFinitePattern p325 (2 ^ 30) = true := by decide

theorem witness_PiecewiseFormOfPositives :
    p8.wf = true ∧ isFinitePattern p8 0x7F = true ∧ (0x7F : Nat).testBit (p8.n - 1) = false := by decide

theorem witness_DecodeExtremes : p8.wf = true ∧ isFinitePattern p8 0xB0 = true ∧
    (positDecode p8 0xB0).real = some (-3 / 2) := by decide +kernel

theorem witness_DecodeIsStrictlyIncreasing : p8.wf = true ∧ 0x81 < 2 ^ p8.n ∧ 0 < 2 ^ p8.n ∧ 0x81 ≠ 2 ^ (p8.n - 1) ∧
    0 ≠ 2 ^ (p8.n - 1) ∧ p8.signedBits 0x81 < p8.signedBits 0 := by decide

/-- For DecodedWordIsExact, EncodeDecodeRoundTrip. -/
theorem witness_patterns : p325.wf = true ∧ 2 ^ 32 - 1 < 2 ^ p325.n ∧ isFinitePattern p325 (2 ^ 32 - 1) = true := by decide

theorem witness_EncodeSpecialCases : p8.wf = true ∧ Binary64.val 0x8000000000000000#64 = some 0 ∧
    Binary64.val 0xFFF8000000000000#64 = none ∧
    (Binary64.val 0xC050000000000000#64 = some (-64) ∧ p8.maxpos ≤ |(-64 : ℚ)|) ∧
    Binary64.val 0x3F80000000000000#64 = some (1 / 128) ∧ (1 / 128 : ℚ) ≠ 0 ∧ |(1 / 128 : ℚ)| < p8.minpos := by
  decide +kernel

theorem witness_FieldsOfRoundedWords : p8.wf = true ∧ Binary64.val 0xBF90000000000000#64 = some (-1 / 64) ∧ (-1 / 64 : ℚ) ≠ 0 ∧
    |(-1 / 64 : ℚ)| < p8.maxpos ∧ p8.minpos ≤ |(-1 / 64 : ℚ)| := by decide +kernel

/-- For DatapathImageIsExactImage and SpecialClausesNeverActInEncoder: both ends of the range of `k`. -/
theorem witness_image_range : p322.wf = true ∧ regimeInRange p322 29 = true ∧ regimeInRange p322 (-30) = true ∧
    3 < 2 ^ p322.es ∧ 2 ^ 52 - 1 < 2 ^ 52 ∧ p322.n - 1 ≤ 31 := by decide

theorem witness_AddAndTruncateIsTiesToEven : p8.wf = true ∧ (0x7FFFFFFFFFFFFFFF#64).getLsbD 63 = false := by decide

theorem witness_EncodeSignSymmetry : p8.wf = true ∧ Binary64.val 0x3FF0000000000000#64 = some 1 ∧ (1 : ℚ) ≠ 0 ∧ (0 : ℚ) < 1 ∧
    Binary64.val 0xBFF0000000000000#64 = some (-1) ∧ (-1 : ℚ) ≠ 0 ∧ (-1 : ℚ) < 0 := by decide +kernel

/-- Each clause at the value of `k` where it begins: -7, -6, 5, 6, 7, 8 at `n = 8`. -/
theorem witness_RoundingUnitTable : p8.wf = true ∧ p8.ruBudget = p8.n ∧
    ([-7, -6, 5, 6, 7, 8, -1023, 1023] : List Int).all (fun k => k.natAbs < p8.kmax) = true ∧ 0 < 2 ^ p8.es ∧
    (0 : Nat) < 2 ^ 52 := by decide

theorem witness_StandaloneRoundingUnitRange : (-((p8.n : Int) - 2) ≤ -6 ∧ -6 ≤ (p8.n : Int) - 3) ∧
    (-((p8.n : Int) - 2) ≤ 5 ∧ 5 ≤ (p8.n : Int) - 3) ∧
    ¬(-((p8.n : Int) - 2) ≤ 6 ∧ 6 ≤ (p8.n : Int) - 3) ∧ ¬(-((p8.n : Int) - 2) ≤ -7 ∧ -7 ≤ (p8.n : Int) - 3) := by decide

theorem witness_BinStrIsFixedWidth : 7 < p8.n := by decide

theorem witness_FormatGuard_differ : ¬((⟨p8, 0⟩ : Posit).cfg.n = (⟨p82, 0⟩ : Posit).cfg.n ∧
    (⟨p8, 0⟩ : Posit).cfg.es = (⟨p82, 0⟩ : Posit).cfg.es) := by decide
theorem witness_FormatGuard_same : (⟨p8, 0⟩ : Posit).cfg.n = (⟨p8, 1⟩ : Posit).cfg.n ∧
    (⟨p8, 0⟩ : Posit).cfg.es = (⟨p8, 1⟩ : Posit).cfg.es := by decide

/-- Operands of one format that differ in every open parameter. -/
theorem witness_BinaryResultTakesLeftParameters :
    sameFormat ⟨p8, 1⟩ ⟨{ p8 with nanCanon := 0x7FF8000000000001#64, ruBudget := 7, initValue := 1#64 }, 2⟩ = true := by decide

theorem witness_NegationIsTwosComplement : p8.wf = true ∧ 0xFF < 2 ^ p8.n ∧ 0x80 = 2 ^ (p8.n - 1) := by decide

theorem witness_NarAbsorbsArithmetic : p8.wf = true ∧ sameFormat ⟨p8, 0x80⟩ ⟨p8, 0⟩ = true ∧ 0x80 < 2 ^ p8.n ∧
    0x80 = p8.narBits ∧ (positDecode p8 0xC0).real = some (-1) ∧ (-1 : ℚ) < 0 := by decide +kernel

theorem witness_ExactOperators : p8.wf = true ∧ sameFormat ⟨p8, 0x40⟩ ⟨p8, 0x60⟩ = true ∧ 0x60 < 2 ^ p8.n ∧
    (positDecode p8 0x40).real = some 1 ∧ (positDecode p8 0x60).real = some 2 ∧
    Binary64.f64 (1 + 2) = some 0x4008000000000000#64 ∧ Binary64.f64 (1 - 2) = some 0xBFF0000000000000#64 ∧
    Binary64.f64 (1 * 2) = some 0x4000000000000000#64 ∧ (2 : ℚ) ≠ 0 ∧
    Binary64.f64 (1 / 2) = some 0x3FE0000000000000#64 := by decide +kernel

/-- For EqualityIsBitwise, OrderIsSignedPatternOrder. -/
theorem witness_comparable : p8.wf = true ∧ sameFormat ⟨p8, 0x81⟩ ⟨p8, 0x7F⟩ = true ∧ 0x81 < 2 ^ p8.n ∧ 0x7F < 2 ^ p8.n ∧
    0x81 ≠ p8.narBits ∧ 0x7F ≠ p8.narBits := by decide

end Sys2Proof.Tests
end

section
/-! SUPPORT. Every step keeps legal parameters and `BITS < 2^n` (R11). -/

namespace Sys2Proof.Machine

theorem one_le_width {c : Config} (h : c.wf = true) : 1 ≤ c.n := by
  obtain ⟨hn, -, -⟩ := Config.wf_bounds h
  omega

theorem constructed_inv {c : Config} (h : c.wf = true) : (State.constructed c).Inv :=
  ⟨h, positEncode_lt (one_le_width h) _⟩

/-- The invariant speaks of the parameters and of `BITS` only. -/
theorem inv_withPending {s : State} (h : s.Inv) (events : List HostEvent) : { s with pending := events }.Inv := h

theorem respond_inv {s : State} (h : s.Inv) (r : Word) : (s.respond r).Inv := h

theorem writeBits_inv {s : State} (h : s.Inv) {p : Nat} (hp : p < 2 ^ s.cfg.n) : (s.writeBits p).Inv := ⟨h.1, hp⟩

theorem reconstruct_inv {s : State} (h : s.Inv) : s.reconstruct.Inv := constructed_inv h.1

/-- A command either leaves `BITS` alone, or writes a masked operand, or writes an encoded value; each is an `n`-bit
pattern. -/
theorem exec_inv {i : Instr} {s t : State} (h : s.Inv) (ht : exec i s = .next t) : t.Inv := by
  obtain ⟨r, hr⟩ | ⟨a, -, hr⟩ | ⟨a, -, hr⟩ := exec_cases i s
  · obtain rfl := Host.Outcome.next.inj (hr.symm.trans ht)
    exact respond_inv h r
  · obtain rfl := Host.Outcome.next.inj (hr.symm.trans ht)
    exact respond_inv (writeBits_inv h (Config.maskBits_lt s.cfg a.toNat)) _
  · obtain rfl := Host.Outcome.next.inj (hr.symm.trans ht)
    exact respond_inv (writeBits_inv h (positEncode_lt (one_le_width h.1) a)) _

theorem step_inv {s t : State} (h : s.Inv) (ht : step s = .next t) : t.Inv := by
  obtain ⟨-, hs⟩ | ⟨w, rest, -, hs⟩ | ⟨rest, -, hs⟩ | ⟨v, w, more, rest, -, hs⟩ := step_cases s
  · obtain rfl := Host.Outcome.next.inj (hs.symm.trans ht)
    exact h
  · exact exec_inv (inv_withPending h rest) (hs.symm.trans ht)
  · obtain rfl := Host.Outcome.next.inj (hs.symm.trans ht)
    exact reconstruct_inv (inv_withPending h rest)
  · simp [hs] at ht

/-- Settles O23: construction encodes `INIT_VALUE` to an `n`-bit pattern, and every event a step performs keeps the
invariant. -/
theorem invariantAfterConstructionAndEveryStep : Obligations.InvariantAfterConstructionAndEveryStep :=
  ⟨fun _ hc => constructed_inv hc, fun _ _ hs ht => step_inv hs ht⟩

end Sys2Proof.Machine
end

section
/-! SUPPORT. A step of one instance in a system of several (R18). -/

namespace Sys2Proof.Machine

theorem stepAt_of_step {sys : System} {i : Nat} {s t : State} (hi : sys[i]? = some s) (ht : step s = .next t) :
    sys.stepAt i = .next (sys.set i t) := by
  simp [System.stepAt, hi, ht]

/-- Settles O26: the stepped system is `sys.set i t`, which differs from `sys` at position `i` only. -/
theorem instancesAreIndependent : Obligations.InstancesAreIndependent := by
  intro sys i s t hi ht
  obtain ⟨hlt, -⟩ := List.getElem?_eq_some_iff.mp hi
  exact ⟨sys.set i t, stepAt_of_step hi ht, List.getElem?_set_self hlt, fun j hj => List.getElem?_set_ne hj.symm⟩

end Sys2Proof.Machine
end

section
/-! SUPPORT. Command words and the operation map: the decoder reads the `op` field, and so do the rows (R40, R41). -/

namespace Sys2Proof

open Laws.CommandFields

theorem decode_encode (i : Instr) : decode (encode i) = i := by
  simp only [decode, encode, opField_append, argField_append]
  cases i <;> simp [opcode, Instr.arg]

theorem opField_append_argField (w : CmdWord) : opField w ++ argField w = w :=
  (BitVec.extractLsb'_append_extractLsb'_eq_extractLsb' rfl).trans BitVec.extractLsb'_eq_self

/-- A 3-bit opcode from its bits, most significant first, the order in which the decoder looks at them. -/
theorem opcode_eq_append_bits (o : BitVec 3) :
    o = BitVec.ofBool (o.getLsbD 2) ++ BitVec.ofBool (o.getLsbD 1) ++ BitVec.ofBool (o.getLsbD 0) := by
  revert o; decide

/-- The decoder names the command whose opcode is the word's `op`: one case per path of its case tree. -/
theorem opcode_decode (w : CmdWord) : opcode (decode w) = opField w := by
  rw [opcode_eq_append_bits (opField w)]
  unfold decode
  split <;> simp only [opcode, *] <;> rfl

/-- The operation map's mask keeps `op` and clears `arg`. -/
theorem and_opMask (w : CmdWord) : w &&& (0b111#3 ++ 0#64) = opField w ++ 0#64 := by
  have hop : opField w &&& 0b111#3 = opField w := BitVec.and_allOnes
  have happ := BitVec.and_append (x₁ := opField w) (x₂ := 0b111#3) (y₁ := argField w) (y₂ := 0#64)
  rwa [hop, BitVec.and_zero, opField_append_argField] at happ

/-- The row of a command: its opcode above an operand that is not looked at. -/
def rowOf (i : Instr) : OpRow := ⟨i.mnemonic, opcode i ++ 0#64, 0b111#3 ++ 0#64⟩

theorem opRows_eq_rowOf : opRows =
    [rowOf (.getbits 0#64), rowOf (.setbits 0#64), rowOf (.getval 0#64), rowOf (.setval 0#64),
     rowOf (.isnar 0#64), rowOf (.getwidth 0#64), rowOf (.dec 0#64), rowOf (.enc 0#64)] := by decide

theorem rowOf_covers (i : Instr) (w : CmdWord) : (rowOf i).covers w = (opcode i == opField w) := by
  rw [OpRow.covers, rowOf, and_opMask, Bool.eq_iff_iff, beq_iff_eq, beq_iff_eq, BitVec.append_left_inj, eq_comm]

/-- The eight opcodes differ from one another, so that of the decoded command singles out its row. -/
theorem opRows_filter_covers (w : CmdWord) : opRows.filter (fun q => q.covers w) = [rowOf (decode w)] := by
  simp only [opRows_eq_rowOf, List.filter_cons, List.filter_nil, rowOf_covers, ← opcode_decode]
  cases decode w <;> rfl

/-- Settles O3: a row covers a word exactly if their `op` fields agree, and one row has the opcode of the decoded
command. -/
theorem everyWordHasOneRow : Obligations.EveryWordHasOneRow :=
  fun w => ⟨rowOf (decode w), opRows_filter_covers w, rfl⟩

end Sys2Proof
end

section
/-! SUPPORT. The pseudo-commands, from the line to the step that performs it (R44). -/

namespace Sys2Proof.Machine

@[simp] theorem step_presentWord (s : State) (w : CmdWord) : step (presentWord s w) = exec (decode w) s := by
  simp [step, performNext, perform]

theorem assemble_clear (c : Config) (results : List Word) :
    (AsmLine.mk .clear none).assemble c results = some (encode (.setbits 0#64)) := rfl

theorem assemble_setnar (c : Config) (results : List Word) :
    (AsmLine.mk .setnar none).assemble c results = some (encode (.setbits (BitVec.ofNat 64 c.narBits))) := rfl

/-- An `n`-bit pattern handed over as an operand is taken as it is (R39). -/
theorem rawOperand_ofNat {c : Config} (hc : c.wf = true) {p : Nat} (hp : p < 2 ^ c.n) :
    rawOperand c (BitVec.ofNat 64 p) = p := by
  obtain ⟨-, hn, -⟩ := Config.wf_bounds hc
  have h64 : 2 ^ c.n ≤ 2 ^ 64 := Nat.pow_le_pow_right (by decide) (by omega)
  rw [rawOperand, Config.maskBits, BitVec.toNat_ofNat, Nat.mod_eq_of_lt (hp.trans_le h64), Nat.mod_eq_of_lt hp]

/-- A presented SETBITS of an `n`-bit pattern leaves that pattern in `BITS`. -/
theorem step_setbits_pattern {s : State} (hc : s.cfg.wf = true) {p : Nat} (hp : p < 2 ^ s.cfg.n) :
    ∃ t, step (presentWord s (encode (.setbits (BitVec.ofNat 64 p)))) = .next t ∧ t.bits = p := by
  rw [step_presentWord, decode_encode, exec_setbits]
  exact ⟨_, rfl, by simp [rawOperand_ofNat hc hp]⟩

/-- Settles O50: both lines assemble to a SETBITS of an `n`-bit pattern, 0 and `NAR_BITS`. -/
theorem pseudoCommandsExpand : Obligations.PseudoCommandsExpand := by
  intro s results hc
  obtain ⟨t, ht, htbits⟩ := step_setbits_pattern hc (Nat.two_pow_pos s.cfg.n)
  obtain ⟨u, hu, hubits⟩ := step_setbits_pattern hc (Config.narBits_lt (one_le_width hc))
  exact ⟨_, _, t, u, assemble_clear s.cfg results, decode_encode _, ht, htbits,
    assemble_setnar s.cfg results, decode_encode _, hu, hubits⟩

end Sys2Proof.Machine
end

section
/-! SUPPORT. The register access and query commands (R50 to R53), their patterns read bit by bit. -/

namespace Sys2Proof.Machine

/-- A port carries every number of at most `n` bits. -/
theorem pattern_lt_word {c : Config} (hc : c.wf = true) {p : Nat} (hp : p < 2 ^ c.n) : p < 2 ^ 64 := by
  obtain ⟨-, hn, -⟩ := Config.wf_bounds hc
  exact hp.trans_le (Nat.pow_le_pow_right (by decide) (by omega))

theorem rawOperand_testBit (c : Config) (a : Word) (j : Nat) :
    (rawOperand c a).testBit j = (decide (j < c.n) && a.getLsbD j) :=
  Nat.testBit_mod_two_pow a.toNat c.n j

theorem narBits_testBit (c : Config) (j : Nat) : c.narBits.testBit j = decide (j = c.n - 1) := by
  rw [Config.narBits, Nat.testBit_two_pow, decide_eq_decide, eq_comm]

/-- NaR is the one pattern with bit `n-1` set and all else zero (R12). -/
theorem eq_narBits_iff_testBit {c : Config} {p : Nat} :
    p = c.narBits ↔ ∀ j, p.testBit j = decide (j = c.n - 1) := by
  constructor
  · rintro rfl
    exact narBits_testBit c
  · intro hbits
    exact Nat.eq_of_testBit_eq fun j => (hbits j).trans (narBits_testBit c j).symm

theorem integerResult_narQuery (c : Config) (p : Nat) :
    integerResult (narQuery c p) = if p = c.narBits then 1#64 else 0#64 := by
  rw [integerResult, narQuery]
  split <;> rfl

/-- Settles O9: an `n`-bit pattern fits the result word, so none of its bits lies at `n` or above. -/
theorem getbitsReturnsPattern : Obligations.GetbitsReturnsPattern := by
  intro s a ⟨hc, hbits⟩
  have hres : (rawResult s.bits).toNat = s.bits := rawResult_toNat (pattern_lt_word hc hbits)
  refine ⟨decode_encode (.getbits a), _, exec_getbits a s, hres, fun j hj => ?_⟩
  rw [← BitVec.testBit_toNat, hres]
  exact Nat.testBit_lt_two_pow (hbits.trans_le (Nat.pow_le_pow_right (by decide) hj))

/-- Settles O10: masking the operand keeps its bits below `n`, and the masked operand fits the result word. -/
theorem setbitsStoresLowBits : Obligations.SetbitsStoresLowBits := by
  intro s a hc
  have hres := rawResult_toNat (pattern_lt_word hc (Config.maskBits_lt s.cfg a.toNat))
  exact ⟨decode_encode (.setbits a), _, _, exec_setbits a s, hres, rawOperand_testBit s.cfg a⟩

/-- Settles O11: the result is 1 exactly if `BITS` is `NAR_BITS`, the pattern whose only set bit is `n-1`. -/
theorem isnarComparesWithSentinel : Obligations.IsnarComparesWithSentinel := by
  intro s a _
  refine ⟨decode_encode (.isnar a), _, exec_isnar a s, ?_⟩
  rw [integerResult_narQuery, ← eq_narBits_iff_testBit]
  by_cases hnar : s.bits = s.cfg.narBits <;> simp [hnar]

/-- Settles O12: `n` is at most 32, so it fits the result word. -/
theorem getwidthReturnsN : Obligations.GetwidthReturnsN := by
  intro s a hc
  have hn : s.cfg.n < 2 ^ 64 := pattern_lt_word hc Nat.lt_two_pow_self
  exact ⟨decode_encode (.getwidth a), _, exec_getwidth a s, integerResult_toNat hn⟩

end Sys2Proof.Machine
end

section
/-! SUPPORT. The binary digit string (R54): the pattern's bits, most significant first, each written as its digit. -/

namespace Sys2Proof.Machine

theorem binDigits_eq_map_msbFirst (p n : Nat) :
    binDigits p n = (Exact.msbFirst p n).map fun b => if b then '1' else '0' := by
  induction n with
  | zero => rfl
  | succ n ih => rw [binDigits, Exact.msbFirst, List.map_cons, ih]

@[simp] theorem binStr_toList (c : Config) (p : Nat) : (binStr c p).toList = binDigits p c.n :=
  String.toList_ofList

/-- Settles O49: the digits are the `n` bits from the most significant down, so place `n-1-j` holds that of bit `j`. -/
theorem binStrIsFixedWidth : Obligations.BinStrIsFixedWidth := by
  intro c p
  constructor
  · rw [← String.length_toList, binStr_toList, binDigits_eq_map_msbFirst, List.length_map, Exact.msbFirst_length]
  · intro j hj
    have hplace : c.n - 1 - (c.n - 1 - j) = j := by omega
    rw [binStr_toList, binDigits_eq_map_msbFirst, List.getElem?_map, Exact.msbFirst_getElem? (by omega), hplace,
      Option.map_some]

end Sys2Proof.Machine
end

section
/-! SUPPORT. The decoder's fields (R63 to R65): the regime run and what it leaves below, as numbers and bit by bit. -/

namespace Sys2Proof.Machine

theorem isFinitePattern_iff {c : Config} {p : Nat} :
    isFinitePattern c p = true ↔ p < 2 ^ c.n ∧ p ≠ 0 ∧ p ≠ 2 ^ (c.n - 1) := decide_eq_true_iff

/-- Zero and NaR are the only patterns with nothing below the sign bit. -/
theorem mod_signWeight_ne_zero {c : Config} (hc : c.wf = true) {p : Nat} (hp : isFinitePattern c p = true) :
    p % 2 ^ (c.n - 1) ≠ 0 := by
  obtain ⟨hlt, h0, hnar⟩ := isFinitePattern_iff.mp hp
  rw [Config.two_pow_n (one_le_width hc)] at hlt
  intro hmod
  obtain ⟨q, rfl⟩ := Nat.dvd_of_mod_eq_zero hmod
  have hq : q < 2 := by rwa [Nat.mul_comm 2, Nat.mul_lt_mul_left (by positivity)] at hlt
  obtain rfl | rfl : q = 0 ∨ q = 1 := by omega
  · exact h0 (Nat.mul_zero _)
  · exact hnar (Nat.mul_one _)

theorem mod_two_pow_succ (p j : Nat) : p % 2 ^ (j + 1) = p % 2 ^ j + 2 ^ j * (p.testBit j).toNat := by
  rw [Nat.mod_pow_succ, Nat.toNat_testBit]

/-- The run as a number: ones at the top fill the `j` bits down to the weight of the run's last bit, zeros add
nothing. -/
theorem mod_eq_runLength_add (p : Nat) (b : Bool) (j : Nat) :
    p % 2 ^ j + b.toNat * 2 ^ (j - runLength p b j) = b.toNat * 2 ^ j + p % 2 ^ (j - runLength p b j) := by
  induction j with
  | zero => simp [runLength, Nat.add_comm]
  | succ j ih =>
    unfold runLength
    split
    next hb =>
      rw [Nat.add_sub_add_right, mod_two_pow_succ, hb, Nat.pow_succ]
      linarith
    next => exact Nat.add_comm _ _

theorem mod_eq_kRun_add (c : Config) (p : Nat) :
    p % 2 ^ (c.n - 1) + (positFields c p).b.toNat * 2 ^ (c.n - 1 - (positFields c p).kRun) =
      (positFields c p).b.toNat * 2 ^ (c.n - 1) + p % 2 ^ (c.n - 1 - (positFields c p).kRun) :=
  mod_eq_runLength_add p _ _

theorem positFields_r (c : Config) (p : Nat) :
    (positFields c p).r = regimeValue (positFields c p).b (positFields c p).kRun := rfl

theorem positFields_ne (c : Config) (p : Nat) :
    (positFields c p).ne = min c.es (c.n - 2 - (positFields c p).kRun) := rfl

theorem positFields_m (c : Config) (p : Nat) :
    (positFields c p).m = c.n - 2 - (positFields c p).kRun - (positFields c p).ne := rfl

theorem positFields_e (c : Config) (p : Nat) : (positFields c p).e =
    exponentField c.es p (c.n - 2 - (positFields c p).kRun) (positFields c p).ne := rfl

theorem positFields_frac (c : Config) (p : Nat) : (positFields c p).frac = bitSlice p 0 (positFields c p).m := rfl

/-- Bit `n-2` itself belongs to the run. -/
theorem one_le_kRun {c : Config} (hc : c.wf = true) (p : Nat) : 1 ≤ (positFields c p).kRun := by
  obtain ⟨hn, -, -⟩ := Config.wf_bounds hc
  show 1 ≤ runLength p (p.testBit (c.n - 2)) (c.n - 1)
  rw [show c.n - 1 = c.n - 2 + 1 by omega, runLength, if_pos rfl]
  omega

theorem kRun_le (c : Config) (p : Nat) : (positFields c p).kRun ≤ c.n - 1 := runLength_le _ _ _

/-- A run of zeros meets a one, for without it the pattern would be zero or NaR. -/
theorem kRun_lt_of_b_eq_false {c : Config} (hc : c.wf = true) {p : Nat} (hp : isFinitePattern c p = true)
    (hb : (positFields c p).b = false) : (positFields c p).kRun < c.n - 1 := by
  refine lt_of_le_of_ne (kRun_le c p) fun hk => mod_signWeight_ne_zero hc hp ?_
  simpa [hk, hb, Nat.mod_one] using mod_eq_kRun_add c p

theorem r_eq_of_b_eq_false {c : Config} {p : Nat} (hb : (positFields c p).b = false) :
    (positFields c p).r = -((positFields c p).kRun : Int) := by
  rw [positFields_r, regimeValue, hb]
  rfl

theorem r_eq_of_b_eq_true {c : Config} {p : Nat} (hb : (positFields c p).b = true) :
    (positFields c p).r = ((positFields c p).kRun : Int) - 1 := by
  rw [positFields_r, regimeValue, hb]
  rfl

theorem r_bounds {c : Config} (hc : c.wf = true) {p : Nat} (hp : isFinitePattern c p = true) :
    -((c.n : Int) - 2) ≤ (positFields c p).r ∧ (positFields c p).r ≤ (c.n : Int) - 2 := by
  obtain ⟨hn, -, -⟩ := Config.wf_bounds hc
  have hk1 := one_le_kRun hc p
  have hkn := kRun_le c p
  cases hb : (positFields c p).b with
  | false =>
    have := kRun_lt_of_b_eq_false hc hp hb
    rw [r_eq_of_b_eq_false hb]
    omega
  | true =>
    rw [r_eq_of_b_eq_true hb]
    omega

/-- Settles O30: `runLength` counts bits equal to `b` and stops at the first other one; without a one below the sign the
pattern would be zero or NaR. -/
theorem regimeRunIsMaximal : Obligations.RegimeRunIsMaximal := by
  intro c p hc hp
  have hbelow : ∀ i, c.n - 1 - 1 - i = c.n - 2 - i := by omega
  refine ⟨rfl, rfl, one_le_kRun hc p, kRun_le c p, fun j hj => ?_, fun hk => ?_, fun hb => ⟨?_, r_eq_of_b_eq_false hb⟩,
    r_eq_of_b_eq_true, r_bounds hc hp⟩
  · rw [← hbelow]
    exact runLength_bits hj
  · rw [← hbelow]
    exact runLength_stops hk
  · have := kRun_lt_of_b_eq_false hc hp hb
    omega

theorem exponentField_lt {es p avail ne : Nat} (h : ne ≤ es) : exponentField es p avail ne < 2 ^ es := by
  calc exponentField es p avail ne < 2 ^ ne * 2 ^ (es - ne) :=
        Nat.mul_lt_mul_of_pos_right (bitSlice_lt _ _ _) (by positivity)
    _ = 2 ^ es := by rw [← Nat.pow_add, Nat.add_sub_cancel' h]

/-- From the top: the bits that are present, then zeros. -/
theorem exponentField_testBit {es p avail ne j : Nat} (hes : ne ≤ es) (hav : ne ≤ avail) (hj : j < es) :
    (exponentField es p avail ne).testBit (es - 1 - j) = (decide (j < ne) && p.testBit (avail - 1 - j)) := by
  rw [exponentField, Nat.testBit_mul_two_pow, bitSlice_testBit]
  by_cases hlt : j < ne
  · have hplace : avail - ne + (es - 1 - j - (es - ne)) = avail - 1 - j := by omega
    have h1 : es - ne ≤ es - 1 - j := by omega
    have h2 : es - 1 - j - (es - ne) < ne := by omega
    simp [hlt, h1, h2, hplace]
  · have h1 : ¬es - ne ≤ es - 1 - j := by omega
    simp [hlt, h1]

/-- Settles O31: the exponent is a slice moved to the top of its `es` bits, the fraction the slice below it, and the run
takes at least one bit of those below the sign. -/
theorem exponentAndFractionFields : Obligations.ExponentAndFractionFields := by
  intro c p hc _
  have hk := one_le_kRun hc p
  refine ⟨rfl, rfl, ?_, exponentField_lt (min_le_left _ _), bitSlice_lt _ _ _,
    fun j hj => exponentField_testBit (min_le_left _ _) (min_le_right _ _) hj, fun j hj => ?_⟩
  · rw [positFields_m, positFields_ne]
    omega
  · rw [positFields_frac, bitSlice_testBit, decide_eq_true hj, Bool.true_and, Nat.zero_add]

end Sys2Proof.Machine
end

section
/-! SUPPORT. The decoded word (R72): `F64` of a normal number is the word that spells it, and the field table gives that
word for the closed form's value. DEC and GETVAL drive it (R73, R74). -/

namespace Sys2Proof.Machine

namespace Binary64

/-- The number `(-1)^s (1 + f/2^52) 2^x` of R35 and R36. -/
def normal (s : Bool) (x : Int) (f : Nat) : ℚ := signFactor s * (1 + (f : ℚ) / 2 ^ 52) * 2 ^ x

theorem normal_false (x : Int) (f : Nat) : normal false x f = (1 + (f : ℚ) / 2 ^ 52) * 2 ^ x := by
  simp [normal, signFactor]

theorem normal_false_pos (x : Int) (f : Nat) : 0 < normal false x f := by
  rw [normal_false]
  positivity

theorem normal_true_eq_neg (x : Int) (f : Nat) : normal true x f = -normal false x f := by
  rw [normal_false, normal, signFactor, if_pos rfl, neg_one_mul, neg_mul]

theorem abs_normal (s : Bool) (x : Int) (f : Nat) : |normal s x f| = normal false x f := by
  cases s
  · exact abs_of_pos (normal_false_pos x f)
  · rw [normal_true_eq_neg, abs_neg, abs_of_pos (normal_false_pos x f)]

theorem normal_ne_zero (s : Bool) (x : Int) (f : Nat) : normal s x f ≠ 0 := by
  rw [← abs_pos, abs_normal]
  exact normal_false_pos x f

theorem normal_neg_iff (s : Bool) (x : Int) (f : Nat) : normal s x f < 0 ↔ s = true := by
  have hpos := normal_false_pos x f
  cases s
  · simp [hpos.le]
  · simp [normal_true_eq_neg, hpos]

/-- With its fraction below `2^52` the number lies in the binade of `2^x`. -/
theorem normal_mem_binade {x : Int} {f : Nat} (hf : f < 2 ^ 52) :
    2 ^ x ≤ normal false x f ∧ normal false x f < 2 ^ (x + 1) := by
  have hpow : (0 : ℚ) < 2 ^ x := by positivity
  have hfrac : (f : ℚ) / 2 ^ 52 < 1 := by
    rw [div_lt_one (by positivity)]
    exact_mod_cast hf
  rw [normal_false, zpow_add_one₀ two_ne_zero]
  constructor
  · exact le_mul_of_one_le_left hpow.le (le_add_of_nonneg_right (by positivity))
  · nlinarith

theorem normal_scaled (x : Int) (f : Nat) : normal false x f * 2 ^ (52 - x) = ((2 ^ 52 + f : Nat) : ℚ) := by
  rw [normal_false, mul_assoc, ← zpow_add₀ two_ne_zero, add_sub_cancel]
  push_cast
  norm_num
  ring

/-- A power of two scales it to an integer, so its denominator is a power of two. -/
theorem exists_den_normal (x : Int) (f : Nat) : ∃ k, (normal false x f).den = 2 ^ k := by
  have hsplit : (2 : ℚ) ^ (x - 52) = 2 ^ (x - 52).toNat / 2 ^ (52 - x).toNat := by
    rw [← zpow_natCast, ← zpow_natCast, ← zpow_sub₀ two_ne_zero]
    congr 1
    omega
  have hquot : normal false x f =
      (((2 ^ 52 + f : Nat) * 2 ^ (x - 52).toNat : Int) : ℚ) / ((2 ^ (52 - x).toNat : Int) : ℚ) := by
    have hback : normal false x f = normal false x f * 2 ^ (52 - x) * 2 ^ (x - 52) := by
      rw [mul_assoc, ← zpow_add₀ two_ne_zero]
      simp
    rw [hback, normal_scaled, hsplit]
    push_cast
    ring
  have hdvd : ((normal false x f).den : Int) ∣ 2 ^ (52 - x).toNat := by
    rw [hquot, Rat.intCast_div_eq_divInt]
    exact Rat.den_dvd _ _
  obtain ⟨k, -, hk⟩ := (Nat.dvd_prime_pow Nat.prime_two).mp (by exact_mod_cast hdvd)
  exact ⟨k, hk⟩

/-- The exponent that `f64` reads off numerator and denominator is that of the number's binade. -/
theorem log2_num_sub_log2_den {v : ℚ} {x : Int} {k : Nat} (hden : v.den = 2 ^ k) (hlo : 2 ^ x ≤ v)
    (hhi : v < 2 ^ (x + 1)) : (Nat.log2 v.num.natAbs : Int) - Nat.log2 v.den = x := by
  have hv : 0 < v := lt_of_lt_of_le (by positivity) hlo
  have hnum : 0 < v.num := Rat.num_pos.mpr hv
  have hpow : (0 : ℚ) < 2 ^ (k : Int) := by positivity
  have hmul : (v.num.natAbs : ℚ) = v * 2 ^ (k : Int) := by
    rw [Nat.cast_natAbs, abs_of_pos hnum, zpow_natCast]
    have := Rat.mul_den_eq_num v
    rw [hden] at this
    exact_mod_cast this.symm
  have hlo' : (2 : ℚ) ^ (x + k) ≤ v.num.natAbs := by
    rw [hmul, zpow_add₀ two_ne_zero]
    exact mul_le_mul_of_nonneg_right hlo hpow.le
  have hhi' : (v.num.natAbs : ℚ) < 2 ^ (x + k + 1) := by
    rw [hmul, add_right_comm, zpow_add₀ two_ne_zero (x + 1)]
    exact mul_lt_mul_of_pos_right hhi hpow
  have hxk : 0 ≤ x + k := by
    have hone : (2 : ℚ) ^ (0 : Int) < 2 ^ (x + k + 1) := by
      refine lt_of_le_of_lt ?_ hhi'
      exact_mod_cast Int.natAbs_pos.mpr hnum.ne'
    have := (zpow_lt_zpow_iff_right₀ one_lt_two).mp hone
    omega
  obtain ⟨j, hj⟩ := Int.eq_ofNat_of_zero_le hxk
  rw [hj] at hlo' hhi'
  have hlog : Nat.log2 v.num.natAbs = j :=
    (Nat.log2_eq_iff (Int.natAbs_ne_zero.mpr hnum.ne')).mpr ⟨by exact_mod_cast hlo', by exact_mod_cast hhi'⟩
  rw [hlog, hden, Nat.log2_two_pow]
  omega

/-- `F64` of a normal number (R36). -/
theorem f64_normal (s : Bool) {x : Int} {f : Nat} (hf : f < 2 ^ 52) (hlo : -1022 ≤ x) (hhi : x ≤ 1023) :
    f64 (normal s x f) = some (assemble s x f) := by
  obtain ⟨k, hden⟩ := exists_den_normal x f
  obtain ⟨h1, h2⟩ := normal_mem_binade (x := x) hf
  have hexp : (Nat.log2 (normal s x f).num.natAbs : Int) - Nat.log2 (normal s x f).den = x := by
    have habs := log2_num_sub_log2_den hden h1 h2
    rwa [← abs_normal s, Rat.num_abs_eq_abs_num, Int.natAbs_abs, Rat.den_abs_eq_den] at habs
  have hsign : decide (normal s x f < 0) = s := by simp [normal_neg_iff]
  rw [f64, if_neg (normal_ne_zero s x f)]
  simp only [hexp, abs_normal, normal_scaled, hsign, Rat.num_natCast, Rat.den_natCast, Int.toNat_natCast,
    Nat.add_sub_cancel_left]
  exact if_pos ⟨trivial, by omega⟩

end Binary64

end Sys2Proof.Machine
end

section
/-! SUPPORT. The decoded word: the field table of R72 spells the closed form's value, and DEC and GETVAL drive it (R73,
R74). -/

namespace Sys2Proof.Machine

theorem closedForm_of_s_eq_false {c : Config} {f : PositFields} (hs : f.s = false) :
    closedForm c f = (1 + (f.frac : ℚ) / 2 ^ f.m) * 2 ^ scaleX c f := by
  simp [closedForm, hs]

theorem closedForm_of_s_eq_true {c : Config} {f : PositFields} (hs : f.s = true) :
    closedForm c f = -((2 - (f.frac : ℚ) / 2 ^ f.m) * 2 ^ (-scaleX c f - 1)) := by
  have hexp : (1 - 2 * 1) * (scaleX c f + 1) = -scaleX c f - 1 := by ring
  simp only [closedForm, hs, Bool.toNat_true, Nat.cast_one, Int.cast_one, hexp]
  ring

/-- An `m`-bit fraction moved to the top of the 52 bits of a binary64 fraction keeps its value. -/
theorem fraction_moved_up {m : Nat} (hm : m ≤ 52) (v : Nat) : ((v * 2 ^ (52 - m) : Nat) : ℚ) / 2 ^ 52 = v / 2 ^ m := by
  rw [div_eq_div_iff (by positivity) (by positivity)]
  push_cast
  rw [mul_assoc, ← pow_add, Nat.sub_add_cancel hm]

theorem fraction_moved_up_lt {m v : Nat} (hm : m ≤ 52) (hv : v < 2 ^ m) : v * 2 ^ (52 - m) < 2 ^ 52 := by
  calc v * 2 ^ (52 - m) < 2 ^ m * 2 ^ (52 - m) := Nat.mul_lt_mul_of_pos_right hv (by positivity)
    _ = 2 ^ 52 := by rw [← Nat.pow_add, Nat.add_sub_cancel' hm]

/-- Each row of the table gives the word of a normal number, and that number is the closed form's. -/
theorem fieldsF64_spells_closedForm (c : Config) {f : PositFields} (hfrac : f.frac < 2 ^ f.m) (hm : f.m ≤ 52)
    (hlo : -1022 ≤ scaleX c f) (hhi : scaleX c f ≤ 1022) (hcut : f.frac ≠ 0 → scaleX c f < 1022) :
    ∃ (x : Int) (frac : Nat), frac < 2 ^ 52 ∧ -1022 ≤ x ∧ x ≤ 1023 ∧
      fieldsF64 c f = Binary64.assemble f.s x frac ∧ closedForm c f = Binary64.normal f.s x frac := by
  cases hs : f.s with
  | false =>
    refine ⟨scaleX c f, f.frac * 2 ^ (52 - f.m), fraction_moved_up_lt hm hfrac, hlo, by omega, ?_, ?_⟩
    · simp [fieldsF64, hs]
    · rw [closedForm_of_s_eq_false hs, Binary64.normal_false, fraction_moved_up hm]
  | true =>
    by_cases h0 : f.frac = 0
    · refine ⟨-scaleX c f, 0, by positivity, by omega, by omega, ?_, ?_⟩
      · simp [fieldsF64, hs, h0]
      · rw [closedForm_of_s_eq_true hs, Binary64.normal_true_eq_neg, Binary64.normal_false, h0,
          zpow_sub_one₀ two_ne_zero]
        norm_num
        ring
    · have := hcut h0
      refine ⟨-scaleX c f - 1, (2 ^ f.m - f.frac) * 2 ^ (52 - f.m), fraction_moved_up_lt hm (by omega), by omega,
        by omega, ?_, ?_⟩
      · simp [fieldsF64, hs, h0]
      · rw [closedForm_of_s_eq_true hs, Binary64.normal_true_eq_neg, Binary64.normal_false, fraction_moved_up hm,
          Nat.cast_sub hfrac.le, sub_div]
        push_cast
        rw [div_self (by positivity)]
        ring

/-- A run of ones down to bit 0 leaves neither exponent nor fraction bits. -/
theorem fields_of_full_run {c : Config} {p : Nat} (hk : (positFields c p).kRun = c.n - 1) :
    (positFields c p).e = 0 ∧ (positFields c p).frac = 0 := by
  have havail : c.n - 2 - (positFields c p).kRun = 0 := by omega
  have hne : (positFields c p).ne = 0 := by
    rw [positFields_ne, havail, Nat.min_zero]
  have hm : (positFields c p).m = 0 := by
    rw [positFields_m, havail, Nat.zero_sub]
  constructor
  · simp [positFields_e, havail, hne, exponentField, bitSlice, Nat.mod_one]
  · simp [positFields_frac, hm, bitSlice, Nat.mod_one]

theorem positFields_e_lt (c : Config) (p : Nat) : (positFields c p).e < 2 ^ c.es :=
  exponentField_lt (min_le_left _ _)

theorem r_le_of_kRun_lt {c : Config} (hc : c.wf = true) {p : Nat} (hk : (positFields c p).kRun < c.n - 1) :
    (positFields c p).r ≤ (c.n : Int) - 2 - 1 := by
  have h1 := one_le_kRun hc p
  cases hb : (positFields c p).b with
  | false =>
    rw [r_eq_of_b_eq_false hb]
    omega
  | true =>
    rw [r_eq_of_b_eq_true hb]
    omega

/-- `X` runs from `-T` to `T`, and reaches `T` only without fraction bits. -/
theorem scaleX_bounds {c : Config} (hc : c.wf = true) {p : Nat} (hp : isFinitePattern c p = true) :
    -(c.bigT : Int) ≤ scaleX c (positFields c p) ∧ scaleX c (positFields c p) ≤ c.bigT ∧
      ((positFields c p).frac ≠ 0 → scaleX c (positFields c p) < c.bigT) := by
  obtain ⟨hn, -, -⟩ := Config.wf_bounds hc
  obtain ⟨hrlo, hrhi⟩ := r_bounds hc hp
  have hes : (0 : Int) < 2 ^ c.es := by positivity
  have hT : (c.bigT : Int) = 2 ^ c.es * ((c.n : Int) - 2) := by
    rw [Config.bigT]
    push_cast [show 2 ≤ c.n by omega]
    rfl
  have hlo : (2 : Int) ^ c.es * -((c.n : Int) - 2) ≤ 2 ^ c.es * (positFields c p).r :=
    mul_le_mul_of_nonneg_left hrlo hes.le
  rw [hT, scaleX]
  rcases (kRun_le c p).eq_or_lt with hk | hk
  · obtain ⟨he, hfrac⟩ := fields_of_full_run hk
    have hhi : (2 : Int) ^ c.es * (positFields c p).r ≤ 2 ^ c.es * ((c.n : Int) - 2) :=
      mul_le_mul_of_nonneg_left hrhi hes.le
    rw [he, Nat.cast_zero, add_zero]
    exact ⟨by linarith, hhi, fun h => absurd hfrac h⟩
  · have he : ((positFields c p).e : Int) < 2 ^ c.es := by exact_mod_cast positFields_e_lt c p
    have hhi : (2 : Int) ^ c.es * (positFields c p).r ≤ 2 ^ c.es * ((c.n : Int) - 2 - 1) :=
      mul_le_mul_of_nonneg_left (r_le_of_kRun_lt hc hk) hes.le
    exact ⟨by linarith, by linarith, fun _ => by linarith⟩
/-- Every pattern but zero and NaR decodes to a normal binary64 number, and the table gives its word (R72). -/
theorem positDecodeF64_normal {c : Config} (hc : c.wf = true) {p : Nat} (hp : isFinitePattern c p = true) :
    ∃ (x : Int) (frac : Nat), frac < 2 ^ 52 ∧ -1022 ≤ x ∧ x ≤ 1023 ∧
      positDecodeF64 c p = Binary64.assemble (positFields c p).s x frac ∧
      positDecode c p = .finite (Binary64.normal (positFields c p).s x frac) := by
  obtain ⟨-, hn, hT⟩ := Config.wf_bounds hc
  obtain ⟨-, h0, hnar⟩ := isFinitePattern_iff.mp hp
  obtain ⟨hlo, hhi, hcut⟩ := scaleX_bounds hc hp
  have hm : (positFields c p).m ≤ 52 := by
    rw [positFields_m]
    omega
  obtain ⟨x, frac, hfrac, hx1, hx2, hword, hvalue⟩ :=
    fieldsF64_spells_closedForm c (f := positFields c p) (bitSlice_lt _ _ _) hm (by omega) (by omega)
      fun h => by have := hcut h; omega
  exact ⟨x, frac, hfrac, hx1, hx2, (positDecodeF64_fields h0 hnar).trans hword,
    (positDecode_fields h0 hnar).trans (congrArg Decoded.finite hvalue)⟩

/-- The word the decoder drives renders the closed form's value, for every pattern (R72). -/
theorem positDecode_rendersAs {c : Config} (hc : c.wf = true) {p : Nat} (hp : p < 2 ^ c.n) :
    (positDecode c p).rendersAs c (positDecodeF64 c p) = true := by
  by_cases h0 : p = 0
  · subst h0
    simp [Decoded.rendersAs]
  by_cases hnar : p = c.narBits
  · subst hnar
    simp [Decoded.rendersAs]
  obtain ⟨x, frac, hfrac, hx1, hx2, hword, hvalue⟩ := positDecodeF64_normal hc (isFinitePattern_iff.mpr ⟨hp, h0, hnar⟩)
  rw [hword, hvalue]
  simp [Decoded.rendersAs, Binary64.f64_normal _ hfrac hx1 hx2]

/-- Settles O13: DEC drives the decoded word of the masked operand, an `n`-bit pattern. -/
theorem decReturnsOperandValue : Obligations.DecReturnsOperandValue := fun s a hc =>
  ⟨decode_encode (.dec a), _, exec_dec a s, positDecode_rendersAs hc (Config.maskBits_lt s.cfg a.toNat)⟩

/-- Settles O14: GETVAL drives the decoded word of `BITS`. -/
theorem getvalReturnsBitsValue : Obligations.GetvalReturnsBitsValue := fun s a ⟨hc, hbits⟩ =>
  ⟨decode_encode (.getval a), _, exec_getval a s, positDecode_rendersAs hc hbits⟩

end Sys2Proof.Machine
end

section
/-! SUPPORT. Sign symmetry of decoding (R68). A pattern's exponent and fraction together are a place on a line,
`Y = X + frac/2^m`, its value is the piecewise exponential of `Y` (R66), and the two's complement mirrors the place. -/

namespace Sys2Proof.Machine

/-- The exponential of base 2, made linear between the integers. -/
def piecewiseExp (y : ℚ) : ℚ := (1 + Int.fract y) * 2 ^ ⌊y⌋

/-- The logarithm of base 2, made linear between the powers of two. -/
def piecewiseLog (u : Nat) : ℚ := Nat.log 2 u + ((u : ℚ) / 2 ^ Nat.log 2 u - 1)

/-- At an integer the lines of both sides meet. -/
theorem piecewiseExp_int_add (x : Int) {t : ℚ} (h0 : 0 ≤ t) (h1 : t ≤ 1) :
    piecewiseExp (x + t) = (1 + t) * 2 ^ x := by
  rw [piecewiseExp, Int.floor_intCast_add, Int.fract_intCast_add]
  rcases h1.eq_or_lt with rfl | hlt
  · rw [Int.fract_one, Int.floor_one, zpow_add_one₀ two_ne_zero]
    ring
  · rw [Int.fract_eq_self.mpr ⟨h0, hlt⟩, Int.floor_eq_zero_iff.mpr ⟨h0, hlt⟩, add_zero]

/-- At a power of two the lines of both sides meet. -/
theorem piecewiseLog_eq {u j : Nat} (hlo : 2 ^ j ≤ u) (hhi : u ≤ 2 ^ (j + 1)) :
    piecewiseLog u = j + ((u : ℚ) / 2 ^ j - 1) := by
  rcases hhi.eq_or_lt with rfl | hlt
  · rw [piecewiseLog, Nat.log_pow (by norm_num), Nat.cast_pow, Nat.cast_ofNat, div_self (by positivity), pow_succ,
      mul_div_cancel_left₀ _ (by positivity)]
    push_cast
    ring
  · rw [piecewiseLog, Nat.log_eq_of_pow_le_of_lt_pow hlo hlt]

/-- The place of a regime and what follows it, in regime steps, from the `w + 1` bits `u` below the sign: zero is
`u = 2^w`, the pattern of one; the logarithm measures the distance from the nearer end. -/
def regimePlace (w u : Nat) : ℚ :=
  if u < 2 ^ w then piecewiseLog u - w else w - piecewiseLog (2 ^ (w + 1) - u)

theorem piecewiseLog_two_pow (w : Nat) : piecewiseLog (2 ^ w) = w := by
  rw [piecewiseLog, Nat.log_pow (by norm_num), Nat.cast_pow, Nat.cast_ofNat, div_self (by positivity), sub_self,
    add_zero]

theorem regimePlace_complement {w u : Nat} (hu : u < 2 ^ (w + 1)) :
    regimePlace w (2 ^ (w + 1) - u) = -regimePlace w u := by
  have hback : 2 ^ (w + 1) - (2 ^ (w + 1) - u) = u := Nat.sub_sub_self hu.le
  have hdouble : 2 ^ (w + 1) = 2 * 2 ^ w := pow_succ' 2 w
  rw [regimePlace, regimePlace, hback]
  rcases lt_trichotomy u (2 ^ w) with hlt | rfl | hgt
  · rw [if_pos hlt, if_neg (by omega), neg_sub]
  · have hself : 2 ^ (w + 1) - 2 ^ w = 2 ^ w := by omega
    rw [hself, if_neg (lt_irrefl _), piecewiseLog_two_pow, sub_self, neg_zero]
  · rw [if_neg hgt.not_gt, if_pos (by omega), neg_sub]

/-- `Y = X + frac/2^m`. -/
def place (c : Config) (f : PositFields) : ℚ := scaleX c f + (f.frac : ℚ) / 2 ^ f.m

/-- The closed form of both signs: the sign's factor acts on the place and on the value (R66). -/
theorem closedForm_eq_piecewiseExp (c : Config) {f : PositFields} (hfrac : f.frac < 2 ^ f.m) :
    closedForm c f =
      Binary64.signFactor f.s * piecewiseExp (Binary64.signFactor f.s * place c f) := by
  have h0 : (0 : ℚ) ≤ (f.frac : ℚ) / 2 ^ f.m := by positivity
  have h1 : (f.frac : ℚ) / 2 ^ f.m ≤ 1 := by
    rw [div_le_one (by positivity)]
    exact_mod_cast hfrac.le
  cases hs : f.s with
  | false =>
    rw [closedForm_of_s_eq_false hs, ← piecewiseExp_int_add _ h0 h1]
    simp [Binary64.signFactor, place]
  | true =>
    have hmirror : -1 * place c f = ((-scaleX c f - 1 : Int) : ℚ) + (1 - (f.frac : ℚ) / 2 ^ f.m) := by
      rw [place]
      push_cast
      ring
    rw [closedForm_of_s_eq_true hs, Binary64.signFactor, if_pos rfl, hmirror,
      piecewiseExp_int_add _ (by linarith) (by linarith)]
    ring

/-- The bits left by the run are the terminator and what stands below it. -/
theorem mod_eq_terminator_add {p w : Nat} {b : Bool} (hk : runLength p b (w + 1) ≤ w) :
    p % 2 ^ (w + 1 - runLength p b (w + 1)) =
      p % 2 ^ (w - runLength p b (w + 1)) + 2 ^ (w - runLength p b (w + 1)) * (!b).toNat := by
  have hbit : p.testBit (w - runLength p b (w + 1)) = !b :=
    Bool.eq_not_of_ne (runLength_stops (Nat.lt_succ_of_le hk))
  rw [Nat.succ_sub hk, mod_two_pow_succ, hbit]

/-- After a run of zeros the bits below the sign are the terminator's weight and the rest. -/
theorem regimePlace_of_zeros {p w k : Nat} (hrun : runLength p false (w + 1) = k) (h1 : 1 ≤ k) (hk : k ≤ w) :
    regimePlace w (p % 2 ^ (w + 1)) = -(k : ℚ) + ((p % 2 ^ (w - k) : Nat) : ℚ) / 2 ^ (w - k) := by
  have hmod : p % 2 ^ (w + 1) = p % 2 ^ (w - k) + 2 ^ (w - k) := by
    have hall := mod_eq_runLength_add p false (w + 1)
    have hterm := mod_eq_terminator_add (p := p) (b := false) (hrun.trans_le hk)
    simp only [hrun, Bool.toNat_false, Bool.not_false, Bool.toNat_true, zero_mul, add_zero, zero_add, mul_one]
      at hall hterm
    exact hall.trans hterm
  have htail : p % 2 ^ (w - k) < 2 ^ (w - k) := Nat.mod_lt _ (by positivity)
  have hdouble : 2 ^ (w - k + 1) = 2 * 2 ^ (w - k) := pow_succ' 2 _
  have hhalf : 2 ^ (w - k + 1) ≤ 2 ^ w := Nat.pow_le_pow_right (by norm_num) (by omega)
  rw [hmod, regimePlace, if_pos (by omega), piecewiseLog_eq (j := w - k) (by omega) (by omega)]
  push_cast [hk]
  rw [add_div, div_self (by positivity)]
  ring

/-- After a run of ones the bits below the sign fall short of the next power of two by what is left of the terminator's
step. -/
theorem regimePlace_of_ones {p w k : Nat} (hrun : runLength p true (w + 1) = k) (h1 : 1 ≤ k) (hk : k ≤ w + 1) :
    regimePlace w (p % 2 ^ (w + 1)) = (k : ℚ) - 1 + ((p % 2 ^ (w - k) : Nat) : ℚ) / 2 ^ (w - k) := by
  have hall := mod_eq_runLength_add p true (w + 1)
  rw [hrun, Bool.toNat_true, one_mul, one_mul] at hall
  have hstep : 2 ^ (w + 1 - k) ≤ 2 ^ w := Nat.pow_le_pow_right (by norm_num) (by omega)
  have hwidth : 2 ^ (w + 1) = 2 * 2 ^ w := pow_succ' 2 w
  rw [regimePlace, if_neg (by omega)]
  rcases hk.eq_or_lt with rfl | hlt
  · have hone : 2 ^ (w + 1) - p % 2 ^ (w + 1) = 2 ^ 0 := by
      rw [Nat.sub_self, pow_zero, Nat.mod_one] at hall
      omega
    have havail : w - (w + 1) = 0 := by omega
    rw [hone, piecewiseLog_two_pow, havail, pow_zero, Nat.mod_one]
    push_cast
    ring
  · have hterm := mod_eq_terminator_add (p := p) (b := true) (hrun.trans_le (Nat.le_of_lt_succ hlt))
    rw [hrun, Bool.not_true, Bool.toNat_false, mul_zero, add_zero] at hterm
    have htail : p % 2 ^ (w - k) < 2 ^ (w - k) := Nat.mod_lt _ (by positivity)
    have hdouble : 2 ^ (w + 1 - k) = 2 * 2 ^ (w - k) := by rw [Nat.succ_sub (by omega), pow_succ']
    have hrest : 2 ^ (w + 1) - p % 2 ^ (w + 1) = 2 * 2 ^ (w - k) - p % 2 ^ (w - k) := by omega
    rw [hrest, piecewiseLog_eq (j := w - k) (by omega) (by rw [pow_succ']; omega)]
    push_cast [show k ≤ w by omega, show p % 2 ^ (w - k) ≤ 2 * 2 ^ (w - k) by omega]
    rw [sub_div, mul_div_assoc, div_self (by positivity)]
    ring

/-- Exponent and fraction together are the bits below the terminator, read as a fraction of the regime's step. -/
theorem exponent_add_fraction (es p avail : Nat) :
    (exponentField es p avail (min es avail) : ℚ) +
        (bitSlice p 0 (avail - min es avail) : ℚ) / 2 ^ (avail - min es avail) =
      2 ^ es * (((p % 2 ^ avail : Nat) : ℚ) / 2 ^ avail) := by
  rcases le_total es avail with hle | hle
  · have hmod : p % 2 ^ avail = bitSlice p 0 (avail - es) + 2 ^ (avail - es) * bitSlice p (avail - es) es := by
      conv_lhs => rw [← Nat.sub_add_cancel hle, Nat.pow_add, Nat.mod_mul]
      rw [bitSlice, bitSlice, pow_zero, Nat.div_one]
    have hpow : (2 : ℚ) ^ avail = 2 ^ (avail - es) * 2 ^ es := by rw [← pow_add, Nat.sub_add_cancel hle]
    rw [min_eq_left hle, exponentField, hmod, hpow, Nat.sub_self]
    push_cast
    field_simp
    ring
  · have hpow : (2 : ℚ) ^ es = 2 ^ (es - avail) * 2 ^ avail := by rw [← pow_add, Nat.sub_add_cancel hle]
    rw [min_eq_right hle, exponentField, hpow, Nat.sub_self]
    simp only [bitSlice, pow_zero, Nat.div_one, Nat.mod_one]
    push_cast
    field_simp
    ring

/-- The place of the bits below the sign, from the regime and what follows it. -/
theorem regimePlace_positFields {c : Config} (hc : c.wf = true) {p : Nat} (hp : isFinitePattern c p = true) :
    regimePlace (c.n - 2) (p % 2 ^ (c.n - 1)) = (positFields c p).r +
      ((p % 2 ^ (c.n - 2 - (positFields c p).kRun) : Nat) : ℚ) / 2 ^ (c.n - 2 - (positFields c p).kRun) := by
  obtain ⟨hn, -, -⟩ := Config.wf_bounds hc
  have hwidth : c.n - 1 = c.n - 2 + 1 := by omega
  have h1 := one_le_kRun hc p
  have hrun : runLength p (positFields c p).b (c.n - 2 + 1) = (positFields c p).kRun := by rw [← hwidth]; rfl
  cases hb : (positFields c p).b with
  | false =>
    have hk := kRun_lt_of_b_eq_false hc hp hb
    rw [hb] at hrun
    rw [hwidth, regimePlace_of_zeros hrun h1 (by omega), r_eq_of_b_eq_false hb]
    push_cast
    rfl
  | true =>
    have hk := kRun_le c p
    rw [hb] at hrun
    rw [hwidth, regimePlace_of_ones hrun h1 (by omega), r_eq_of_b_eq_true hb]
    push_cast
    rfl

/-- One regime step is `2^es` (R66). -/
theorem place_positFields {c : Config} (hc : c.wf = true) {p : Nat} (hp : isFinitePattern c p = true) :
    place c (positFields c p) = 2 ^ c.es * regimePlace (c.n - 2) (p % 2 ^ (c.n - 1)) := by
  rw [regimePlace_positFields hc hp, mul_add, ← exponent_add_fraction, place, scaleX]
  push_cast
  exact add_assoc _ _ _

theorem testBit_sign {c : Config} (hn : 1 ≤ c.n) {p : Nat} (hp : p < 2 ^ c.n) :
    p.testBit (c.n - 1) = decide (2 ^ (c.n - 1) ≤ p) := by
  by_cases hle : 2 ^ (c.n - 1) ≤ p
  · rw [decide_eq_true hle]
    exact Nat.testBit_of_two_pow_le_and_two_pow_add_one_gt hle (by rwa [Nat.sub_add_cancel hn])
  · rw [decide_eq_false hle, Nat.testBit_lt_two_pow (not_le.mp hle)]

/-- The two's complement flips the sign bit and complements what stands below it. -/
theorem negBits_parts {c : Config} (hc : c.wf = true) {p : Nat} (hp : isFinitePattern c p = true) :
    c.negBits p % 2 ^ (c.n - 1) = 2 ^ (c.n - 1) - p % 2 ^ (c.n - 1) ∧
      (c.negBits p).testBit (c.n - 1) = !p.testBit (c.n - 1) := by
  have hn := one_le_width hc
  obtain ⟨hlt, h0, hnar⟩ := isFinitePattern_iff.mp hp
  have hdouble := Config.two_pow_n hn
  rw [testBit_sign hn (Config.negBits_lt c p), testBit_sign hn hlt, ← decide_not, decide_eq_decide,
    Config.negBits_of_pos (Nat.pos_of_ne_zero h0) hlt, hdouble]
  rcases lt_or_gt_of_ne hnar with hpos | hneg
  · have hsplit : 2 * 2 ^ (c.n - 1) - p = 2 ^ (c.n - 1) - p + 2 ^ (c.n - 1) := by omega
    rw [Nat.mod_eq_of_lt hpos, hsplit, Nat.add_mod_right, Nat.mod_eq_of_lt (by omega)]
    omega
  · have hmod : p % 2 ^ (c.n - 1) = p - 2 ^ (c.n - 1) := by
      rw [Nat.mod_eq_sub_mod hneg.le, Nat.mod_eq_of_lt (by omega)]
    rw [hmod, Nat.mod_eq_of_lt (by omega)]
    omega

/-- Zero and NaR are their own two's complements, and no other pattern has them as its own. -/
theorem isFinitePattern_negBits {c : Config} (hc : c.wf = true) {p : Nat} (hp : isFinitePattern c p = true) :
    isFinitePattern c (c.negBits p) = true := by
  obtain ⟨hlt, h0, hnar⟩ := isFinitePattern_iff.mp hp
  have hdouble := Config.two_pow_n (one_le_width hc)
  have hneg := Config.negBits_of_pos (Nat.pos_of_ne_zero h0) hlt
  exact isFinitePattern_iff.mpr ⟨Config.negBits_lt c p, by omega, by omega⟩

theorem real_of_isFinitePattern {c : Config} {p : Nat} (hp : isFinitePattern c p = true) :
    (positDecode c p).real = some (closedForm c (positFields c p)) := by
  obtain ⟨-, h0, hnar⟩ := isFinitePattern_iff.mp hp
  rw [positDecode_fields h0 hnar, Decoded.real]

theorem signFactor_not (s : Bool) : Binary64.signFactor (!s) = -Binary64.signFactor s := by
  cases s <;> simp [Binary64.signFactor]

theorem place_negBits {c : Config} (hc : c.wf = true) {p : Nat} (hp : isFinitePattern c p = true) :
    place c (positFields c (c.negBits p)) = -place c (positFields c p) := by
  obtain ⟨hn, -, -⟩ := Config.wf_bounds hc
  have hbelow : p % 2 ^ (c.n - 1) < 2 ^ (c.n - 1) := Nat.mod_lt _ (by positivity)
  have hwidth : c.n - 1 = c.n - 2 + 1 := by omega
  rw [place_positFields hc (isFinitePattern_negBits hc hp), place_positFields hc hp, (negBits_parts hc hp).1]
  rw [hwidth] at hbelow ⊢
  rw [regimePlace_complement hbelow, mul_neg]

/-- Settles O33: the two's complement flips the sign's factor and mirrors the place, so their product, of which the value
is the piecewise exponential, stays. -/
theorem decodeSignSymmetry : Obligations.DecodeSignSymmetry := by
  intro c p hc hp
  have hneg := isFinitePattern_negBits hc hp
  have hsign : (positFields c (c.negBits p)).s = !(positFields c p).s := (negBits_parts hc hp).2
  rw [real_of_isFinitePattern hneg, real_of_isFinitePattern hp, Option.map_some,
    closedForm_eq_piecewiseExp c (bitSlice_lt _ _ _), closedForm_eq_piecewiseExp c (bitSlice_lt _ _ _),
    hsign, signFactor_not, place_negBits hc hp, neg_mul_neg, neg_mul]

end Sys2Proof.Machine
end

section
/-! SUPPORT. The encoder's field tests on real values: where a word's magnitude lies, and its sign (R82 to R87). -/

namespace Sys2Proof.Machine

/-- The value of a normal word (R35). -/
theorem val_of_normal {d : Word} (h0 : Binary64.expo d ≠ 0) (h1 : Binary64.expo d ≠ 2047) :
    Binary64.val d = some (Binary64.normal (Binary64.sign d) (unbiased d) (Binary64.frac d)) := by
  rw [Binary64.val, if_neg h1, if_neg h0]
  rfl

/-- The value of a zero or subnormal word (R35). -/
theorem val_of_expo_eq_zero {d : Word} (h0 : Binary64.expo d = 0) :
    Binary64.val d =
      some (Binary64.signFactor (Binary64.sign d) * Binary64.frac d * 2 ^ (-1074 : ℤ)) := by
  rw [Binary64.val, if_neg (by omega), if_pos h0]

theorem abs_signFactor (s : Bool) : |Binary64.signFactor s| = 1 := by
  cases s <;> simp [Binary64.signFactor]

/-- Zero and every subnormal lie below the least normal number. -/
theorem abs_lt_of_expo_eq_zero {d : Word} {v : ℚ} (hv : Binary64.val d = some v) (h0 : Binary64.expo d = 0) :
    |v| < 2 ^ (-1022 : ℤ) := by
  have hfrac : (Binary64.frac d : ℚ) < 2 ^ (52 : ℤ) := by exact_mod_cast Binary64.frac_lt d
  obtain rfl := Option.some.inj ((val_of_expo_eq_zero h0).symm.trans hv)
  calc |Binary64.signFactor (Binary64.sign d) * Binary64.frac d * 2 ^ (-1074 : ℤ)|
      = Binary64.frac d * 2 ^ (-1074 : ℤ) := by
        rw [abs_mul, abs_mul, abs_signFactor, one_mul, Nat.abs_cast, abs_of_pos (by positivity)]
    _ < 2 ^ (52 : ℤ) * 2 ^ (-1074 : ℤ) := mul_lt_mul_of_pos_right hfrac (by positivity)
    _ = 2 ^ (-1022 : ℤ) := by rw [← zpow_add₀ two_ne_zero]; norm_num

/-- From the least normal number up, a comparison with a power of two is one of the exponent field. -/
theorem two_zpow_le_abs_val_iff {d : Word} {v : ℚ} {m : ℤ} (hv : Binary64.val d = some v) (hm : -1022 ≤ m) :
    2 ^ m ≤ |v| ↔ 1 ≤ Binary64.expo d ∧ m ≤ unbiased d := by
  by_cases h0 : Binary64.expo d = 0
  · have hpow : (2 : ℚ) ^ (-1022 : ℤ) ≤ 2 ^ m := zpow_le_zpow_right₀ one_le_two hm
    have hlt := abs_lt_of_expo_eq_zero hv h0
    exact ⟨fun h => absurd h (not_le.mpr (hlt.trans_le hpow)), fun h => by omega⟩
  · have h1 : Binary64.expo d ≠ 2047 := fun h => by simp [(val_eq_none_iff d).mpr h] at hv
    obtain rfl := Option.some.inj ((val_of_normal h0 h1).symm.trans hv)
    obtain ⟨hlo, hhi⟩ := Binary64.normal_mem_binade (x := unbiased d) (Binary64.frac_lt d)
    rw [Binary64.abs_normal]
    constructor
    · intro h
      have := (zpow_lt_zpow_iff_right₀ one_lt_two).mp (h.trans_lt hhi)
      omega
    · rintro ⟨-, h⟩
      exact (zpow_le_zpow_right₀ one_le_two h).trans hlo

/-- The test at the top (R84). -/
theorem atLeastMaxpos_iff {c : Config} {d : Word} {v : ℚ} (hv : Binary64.val d = some v) :
    atLeastMaxpos c d = true ↔ c.maxpos ≤ |v| := by
  have hpow : c.maxpos = 2 ^ (c.bigT : ℤ) := (zpow_natCast 2 c.bigT).symm
  rw [hpow, two_zpow_le_abs_val_iff hv (by omega), atLeastMaxpos, decide_eq_true_iff]

/-- The test at the bottom (R85). -/
theorem belowMinpos_iff {c : Config} (hc : c.wf = true) {d : Word} {v : ℚ} (hv : Binary64.val d = some v) :
    belowMinpos c d = true ↔ |v| < c.minpos := by
  obtain ⟨-, -, hT⟩ := Config.wf_bounds hc
  rw [Config.minpos, ← not_le, two_zpow_le_abs_val_iff hv (by omega), belowMinpos, decide_eq_true_iff]
  omega

theorem minpos_le_maxpos (c : Config) : c.minpos ≤ c.maxpos := by
  rw [Config.minpos, Config.maxpos, ← zpow_natCast]
  exact zpow_le_zpow_right₀ one_le_two (by omega)

/-- A value is its sign bit's factor times something that is not negative. -/
theorem val_neg_iff {d : Word} {v : ℚ} (hv : Binary64.val d = some v) (hv0 : v ≠ 0) :
    v < 0 ↔ Binary64.sign d = true := by
  have h1 : Binary64.expo d ≠ 2047 := fun h => by simp [(val_eq_none_iff d).mpr h] at hv
  by_cases h0 : Binary64.expo d = 0
  · obtain rfl := Option.some.inj ((val_of_expo_eq_zero h0).symm.trans hv)
    have hnonneg : (0 : ℚ) ≤ Binary64.frac d * 2 ^ (-1074 : ℤ) := by positivity
    rw [mul_assoc] at hv0 ⊢
    have hpos := lt_of_le_of_ne hnonneg (right_ne_zero_of_mul hv0).symm
    cases Binary64.sign d
    · simp [Binary64.signFactor]
    · simpa [Binary64.signFactor] using hpos
  · obtain rfl := Option.some.inj ((val_of_normal h0 h1).symm.trans hv)
    exact Binary64.normal_neg_iff _ _ _

/-- Sign application on an `n`-bit pattern is `neg_n`, the two's complement (R95). -/
theorem applySign_natCast {c : Config} (s : Bool) {p : Nat} (hp : p < 2 ^ c.n) :
    applySign c s p = if s then c.negBits p else p := by
  have hpow : ((2 ^ c.n : Nat) : Int) = 2 ^ c.n := by push_cast; rfl
  cases s with
  | false =>
    rw [applySign, if_neg Bool.false_ne_true, if_neg Bool.false_ne_true, ← hpow, ← Int.natCast_mod, Int.toNat_natCast,
      Nat.mod_eq_of_lt hp]
  | true =>
    have hneg : ((2 ^ c.n - p : Nat) : Int) = -p + 2 ^ c.n := by omega
    rw [applySign, if_pos rfl, if_pos rfl, Config.negBits, ← Int.add_emod_right, ← hneg, ← hpow, ← Int.natCast_mod,
      Int.toNat_natCast]

/-- `Encode` of a finite non-zero word, by its magnitude pattern (R80, R95). -/
theorem positEncode_of_ne_zero {c : Config} {d : Word} {v : ℚ} (hv : Binary64.val d = some v) (hv0 : v ≠ 0) :
    positEncode c d = applySign c (Binary64.sign d) (magnitudePattern c d) := by
  have h0 : ¬(Binary64.expo d = 0 ∧ Binary64.frac d = 0) := by
    rw [← val_eq_zero_iff, hv]
    exact fun h => hv0 (Option.some.inj h)
  have h1 : Binary64.expo d ≠ 2047 := by
    rw [ne_eq, ← val_eq_none_iff, hv]
    exact Option.some_ne_none v
  rw [positEncode, if_neg h0, if_neg h1]

theorem positEncode_zero {c : Config} {d : Word} (hv : Binary64.val d = some 0) : positEncode c d = c.zeroBits := by
  rw [positEncode, if_pos ((val_eq_zero_iff d).mp hv)]

theorem positEncode_of_val_eq_none {c : Config} {d : Word} (hv : Binary64.val d = none) :
    positEncode c d = c.narBits := by
  have h1 := (val_eq_none_iff d).mp hv
  rw [positEncode, if_neg (by omega), if_pos h1]

theorem magnitudePattern_of_maxpos_le {c : Config} {d : Word} {v : ℚ} (hv : Binary64.val d = some v)
    (hmax : c.maxpos ≤ |v|) : magnitudePattern c d = c.maxposBits := by
  rw [magnitudePattern, if_pos ((atLeastMaxpos_iff hv).mpr hmax)]

theorem magnitudePattern_of_lt_minpos {c : Config} (hc : c.wf = true) {d : Word} {v : ℚ}
    (hv : Binary64.val d = some v) (hmin : |v| < c.minpos) : magnitudePattern c d = c.minposBits := by
  have hmax : ¬atLeastMaxpos c d = true := by
    rw [atLeastMaxpos_iff hv, not_le]
    exact hmin.trans_le (minpos_le_maxpos c)
  rw [magnitudePattern, if_neg hmax, if_pos ((belowMinpos_iff hc hv).mpr hmin)]

/-- `Encode` of a finite non-zero word, from its magnitude pattern as a number (R95). -/
theorem positEncode_of_magnitudePattern {c : Config} {d : Word} {v : ℚ} (hv : Binary64.val d = some v) (hv0 : v ≠ 0)
    {p : Nat} (hp : magnitudePattern c d = p) (hlt : p < 2 ^ c.n) :
    positEncode c d = if Binary64.sign d then c.negBits p else p := by
  rw [positEncode_of_ne_zero hv hv0, hp, applySign_natCast _ hlt]

theorem maxposBits_add_one (c : Config) : c.maxposBits + 1 = 2 ^ (c.n - 1) := Nat.sub_add_cancel (Nat.two_pow_pos _)

theorem one_le_maxposBits {c : Config} (hc : c.wf = true) : 1 ≤ c.maxposBits := by
  obtain ⟨hn, -, -⟩ := Config.wf_bounds hc
  have h1 : 1 < 2 ^ (c.n - 1) := Nat.one_lt_two_pow (by omega)
  have h2 := maxposBits_add_one c
  omega

theorem maxposBits_lt {c : Config} (hc : c.wf = true) : c.maxposBits < 2 ^ c.n := by
  have h1 := maxposBits_add_one c
  have h2 := Config.two_pow_n (one_le_width hc)
  omega

theorem negBits_maxposBits {c : Config} (hc : c.wf = true) : c.negBits c.maxposBits = 2 ^ (c.n - 1) + 1 := by
  have h1 := maxposBits_add_one c
  have h2 := Config.two_pow_n (one_le_width hc)
  rw [Config.negBits_of_pos (one_le_maxposBits hc) (maxposBits_lt hc)]
  omega

theorem minposBits_lt {c : Config} (hc : c.wf = true) : c.minposBits < 2 ^ c.n :=
  Nat.one_lt_two_pow (Nat.one_le_iff_ne_zero.mp (one_le_width hc))

/-- Settles O37: each case is one branch of the encoder, and the extreme patterns have the two's complements
`2^(n-1) + 1` and `2^n - 1`. -/
theorem encodeSpecialCases : Obligations.EncodeSpecialCases := by
  intro c d hc
  refine ⟨positEncode_zero, positEncode_of_val_eq_none, fun v hv => ⟨fun hmax => ?_, fun hv0 hmin => ?_⟩⟩
  · have hpos : 0 < c.maxpos := by rw [Config.maxpos]; positivity
    have hv0 : v ≠ 0 := abs_pos.mp (hpos.trans_le hmax)
    rw [positEncode_of_magnitudePattern hv hv0 (magnitudePattern_of_maxpos_le hv hmax) (maxposBits_lt hc),
      negBits_maxposBits hc]
    simp only [val_neg_iff hv hv0]
    rfl
  · rw [positEncode_of_magnitudePattern hv hv0 (magnitudePattern_of_lt_minpos hc hv hmin) (minposBits_lt hc),
      Config.negBits_of_pos (v := c.minposBits) one_pos (minposBits_lt hc)]
    simp only [val_neg_iff hv hv0]
    rfl

end Sys2Proof.Machine
end

section
/-! SUPPORT. The 64-bit image is the exact image, with every bit past the 63rd gathered in bit 0 (R91 to R94). -/

namespace Sys2Proof.Machine

namespace Exact

@[simp] theorem msbFirst_getD (v w j : Nat) :
    (msbFirst v w)[j]?.getD false = (decide (j < w) && v.testBit (w - 1 - j)) := by
  by_cases hj : j < w
  · rw [msbFirst_getElem? hj, decide_eq_true hj, Bool.true_and, Option.getD_some]
  · simp [hj]

theorem append_getD (l m : List Bool) (j : Nat) :
    (l ++ m)[j]?.getD false = (l[j]?.getD false || decide (l.length ≤ j) && m[j - l.length]?.getD false) := by
  by_cases hj : j < l.length
  · simp [List.getElem?_append_left hj, hj, Nat.not_le.mpr hj]
  · simp [List.getElem?_append_right (Nat.not_lt.mp hj), hj, Nat.not_lt.mp hj]

/-- The regime's last bit and its terminator, as a two-bit number (R91). -/
def regimeEnd (k : Int) : Nat := if 0 ≤ k then 0b10 else 0b01

/-- The bits that R91 packs from bit 63 down: the regime's end, the exponent, the fraction. -/
def scratchBits (c : Config) (k : Int) (e f : Nat) : List Bool :=
  msbFirst (regimeEnd k) 2 ++ (msbFirst e c.es ++ msbFirst f 52)

theorem msbFirst_regimeEnd (k : Int) : msbFirst (regimeEnd k) 2 = [decide (0 ≤ k), !decide (0 ≤ k)] := by
  by_cases hk : 0 ≤ k <;> simp only [regimeEnd, hk, if_true, if_false, decide_true, decide_false] <;> rfl

theorem scratchBits_zero (c : Config) (k : Int) (e f : Nat) :
    (scratchBits c k e f)[0]?.getD false = decide (0 ≤ k) := by simp [scratchBits, msbFirst_regimeEnd]

theorem scratchBits_one (c : Config) (k : Int) (e f : Nat) :
    (scratchBits c k e f)[1]?.getD false = !decide (0 ≤ k) := by simp [scratchBits, msbFirst_regimeEnd]

/-- The regime field repeats its first bit, before its end, as often as the arithmetic shift of R92 does. -/
theorem regimeField_eq (k : Int) :
    regimeField k = List.replicate (shiftCount k) (decide (0 ≤ k)) ++ msbFirst (regimeEnd k) 2 := by
  rw [regimeField, shiftCount, msbFirst_regimeEnd]
  by_cases hk : 0 ≤ k
  · rw [if_pos hk, if_pos hk, decide_eq_true hk, List.replicate_succ', List.append_assoc]
    rfl
  · have hcount : (-k).toNat = (-k - 1).toNat + 1 := by omega
    rw [if_neg hk, if_neg hk, decide_eq_false hk, hcount, List.replicate_succ', List.append_assoc]
    rfl

theorem image_eq (c : Config) (k : Int) (e f : Nat) :
    image c k e f = false :: (List.replicate (shiftCount k) (decide (0 ≤ k)) ++ scratchBits c k e f) := by
  simp [image, regimeField_eq, scratchBits]

@[simp] theorem imageBit_zero (c : Config) (k : Int) (e f : Nat) : imageBit c k e f 0 = false := rfl

/-- Past the sign position the image is the regime's repeated bit, then the packed bits. -/
theorem imageBit_succ (c : Config) (k : Int) (e f j : Nat) :
    imageBit c k e f (j + 1) =
      if j < shiftCount k then decide (0 ≤ k) else (scratchBits c k e f)[j - shiftCount k]?.getD false := by
  rw [imageBit, image_eq]
  by_cases hj : j < shiftCount k
  · simp [hj, List.getElem?_append_left]
  · have hlen : (List.replicate (shiftCount k) (decide (0 ≤ k))).length ≤ j := by simpa using hj
    simp [hj, List.getElem?_append_right hlen]

/-- A list has a set bit past its first `m` ones. -/
theorem any_drop_iff (l : List Bool) (m : Nat) :
    (l.drop m).any id = true ↔ ∃ j, m ≤ j ∧ l.getD j false = true := by
  simp only [List.any_eq_true, id_eq, exists_eq_right, List.mem_iff_getElem?, List.getElem?_drop]
  constructor
  · rintro ⟨i, hi⟩
    exact ⟨m + i, by omega, by simp [hi]⟩
  · rintro ⟨j, hj, hbit⟩
    refine ⟨j - m, ?_⟩
    rw [Nat.add_sub_cancel' hj]
    cases hget : l[j]? with
    | none => simp [hget] at hbit
    | some b => simpa [hget] using hbit

theorem sticky_iff (c : Config) (k : Int) (e f : Nat) :
    sticky c k e f = true ↔ ∃ j, c.n < j ∧ imageBit c k e f j = true :=
  any_drop_iff _ _

end Exact

/-- A remainder by a power of two is zero only without set bits. -/
theorem mod_two_pow_ne_zero_iff (x s : Nat) : x % 2 ^ s ≠ 0 ↔ ∃ i, i < s ∧ x.testBit i = true := by
  constructor
  · intro hne
    obtain ⟨i, hbit⟩ := Nat.exists_testBit_of_ne_zero hne
    rw [Nat.testBit_mod_two_pow, Bool.and_eq_true, decide_eq_true_iff] at hbit
    exact ⟨i, hbit⟩
  · rintro ⟨i, hi, hbit⟩ hzero
    have hmod := Nat.testBit_mod_two_pow x s i
    rw [hzero, Nat.zero_testBit, hbit, decide_eq_true hi] at hmod
    exact Bool.false_ne_true hmod

/-- A `w`-bit field that stands `top` bits below bit 63 of a word. -/
theorem ofNat_shiftLeft_getMsbD {v w top lo : Nat} (hv : v < 2 ^ w) (hsum : top + w + lo = 64) (j : Nat) :
    (BitVec.ofNat 64 v <<< lo).getMsbD j = (decide (top ≤ j) && (Exact.msbFirst v w)[j - top]?.getD false) := by
  have hhigh : ∀ i, w ≤ i → v.testBit i = false := fun i hi =>
    Nat.testBit_lt_two_pow (hv.trans_le (Nat.pow_le_pow_right (by decide) hi))
  rw [BitVec.getMsbD, BitVec.getLsbD_shiftLeft, BitVec.getLsbD_ofNat, Exact.msbFirst_getD]
  by_cases htop : top ≤ j
  · by_cases hw : j - top < w
    · have hplace : 64 - 1 - j - lo = w - 1 - (j - top) := by omega
      have hlo : lo ≤ 64 - 1 - j := by omega
      have hin : w - 1 - (j - top) < 64 := by omega
      simp [htop, hw, hplace, Nat.not_lt.mpr hlo, hin, show j < 64 by omega, show 63 - j < 64 by omega]
    · have hbelow : j < 64 → 64 - 1 - j < lo := by omega
      by_cases hj : j < 64
      · simp [hw, hbelow hj]
      · simp [hw, hj]
  · simp [htop, hhigh (64 - 1 - j - lo) (by omega)]

/-- The sticky word of R93 touches bit 0 only. -/
theorem stickyWord_getLsbD (b : Bool) (i : Nat) :
    (if b then 1#64 else 0#64).getLsbD i = (decide (i = 0) && b) := by
  cases b <;> simp [BitVec.getLsbD_one]

section
variable {c : Config} (hc : c.wf = true) (k : Int) {e f : Nat} (he : e < 2 ^ c.es) (hf : f < 2 ^ 52)
include hc he hf

/-- The scratch word holds the packed bits at its top, and zeros below (R91). -/
theorem scratchWord_getMsbD (j : Nat) :
    (scratchWord c k e f).getMsbD j = (Exact.scratchBits c k e f)[j]?.getD false := by
  have hes := Config.wf_es hc
  have hend : Exact.regimeEnd k < 2 ^ 2 := by rw [Exact.regimeEnd]; split <;> decide
  have hword : (if 0 ≤ k then 0b10#64 else 0b01#64) = BitVec.ofNat 64 (Exact.regimeEnd k) := by
    rw [Exact.regimeEnd]; split <;> rfl
  have hfrac : decide (2 + c.es ≤ j) = (decide (2 ≤ j) && decide (c.es ≤ j - 2)) := by
    rw [← Bool.decide_and, decide_eq_decide]
    omega
  rw [scratchWord, hword, BitVec.getMsbD_or, BitVec.getMsbD_or, ofNat_shiftLeft_getMsbD (top := 0) hend (by omega),
    ofNat_shiftLeft_getMsbD (top := 2) he (by omega), ofNat_shiftLeft_getMsbD (top := 2 + c.es) hf (by omega),
    Exact.scratchBits, Exact.append_getD, Exact.append_getD, Exact.msbFirst_length, Exact.msbFirst_length, hfrac,
    ← Nat.sub_sub]
  simp [Bool.and_or_distrib_left, Bool.or_assoc, Bool.and_assoc]

/-- The top bit of the scratch word is the one the regime repeats. -/
theorem scratchWord_getMsbD_zero : (scratchWord c k e f).getMsbD 0 = decide (0 ≤ k) := by
  rw [scratchWord_getMsbD hc k he hf, Exact.scratchBits_zero]

/-- The exact image past its sign position is the scratch word behind the regime's repeated bit. -/
theorem imageBit_succ_eq_scratchWord (j : Nat) :
    Exact.imageBit c k e f (j + 1) =
      if j < shiftCount k then decide (0 ≤ k) else (scratchWord c k e f).getMsbD (j - shiftCount k) := by
  rw [Exact.imageBit_succ, scratchWord_getMsbD hc k he hf]

/-- So the arithmetic shift gives the image past its sign position, as far as 64 bits go (R92). -/
theorem shifted_getMsbD {j : Nat} (hj : j < 64) :
    ((scratchWord c k e f).sshiftRight (shiftCount k)).getMsbD j = Exact.imageBit c k e f (j + 1) := by
  have hmsb : (scratchWord c k e f).msb = decide (0 ≤ k) := scratchWord_getMsbD_zero hc k he hf
  rw [BitVec.getMsbD_sshiftRight, imageBit_succ_eq_scratchWord hc k he hf, hmsb, decide_eq_true hj, Bool.true_and]

/-- The bits that the arithmetic shift pushes out are those of the image past 64 bits and the sign position (R93). -/
theorem scratchWord_pushedOut_iff :
    (scratchWord c k e f).toNat % 2 ^ shiftCount k ≠ 0 ↔ ∃ j, 64 ≤ j ∧ Exact.imageBit c k e f (j + 1) = true := by
  simp only [mod_two_pow_ne_zero_iff, BitVec.testBit_toNat, imageBit_succ_eq_scratchWord hc k he hf]
  constructor
  · rintro ⟨i, hi, hbit⟩
    have hi64 : i < 64 := BitVec.lt_of_getLsbD hbit
    refine ⟨63 - i + shiftCount k, by omega, ?_⟩
    rw [if_neg (by omega), Nat.add_sub_cancel, BitVec.getMsbD_eq_getLsbD, decide_eq_true (by omega), Bool.true_and]
    rwa [show 64 - 1 - (63 - i) = i by omega]
  · rintro ⟨j, hj, hbit⟩
    split at hbit
    next hlt =>
      rw [← scratchWord_getMsbD_zero hc k he hf, BitVec.getMsbD_eq_getLsbD] at hbit
      exact ⟨63, by omega, hbit⟩
    next hge =>
      rw [BitVec.getMsbD_eq_getLsbD, Bool.and_eq_true, decide_eq_true_iff] at hbit
      exact ⟨64 - 1 - (j - shiftCount k), by omega, hbit.2⟩

/-- The first 63 bits of the exact image are the top 63 bits of the 64-bit image (R94). -/
theorem image64_getLsbD {j : Nat} (hj : j < 63) :
    (image64 c k e f).getLsbD (63 - j) = Exact.imageBit c k e f j := by
  have hpos : ¬63 - j = 0 := by omega
  rw [image64, BitVec.getLsbD_or, stickyWord_getLsbD, decide_eq_false hpos, Bool.false_and, Bool.or_false,
    BitVec.getLsbD_ushiftRight]
  cases j with
  | zero => exact BitVec.getLsbD_of_ge _ _ (le_refl 64)
  | succ j =>
    have hplace : 1 + (63 - (j + 1)) = 64 - 1 - j := by omega
    rw [← shifted_getMsbD hc k he hf (by omega), BitVec.getMsbD_eq_getLsbD, decide_eq_true (by omega), Bool.true_and,
      hplace]

/-- Bit 0 of the 64-bit image is the OR of every bit of the exact image that has no place of its own (R93, R94). -/
theorem image64_getLsbD_zero_iff :
    (image64 c k e f).getLsbD 0 = true ↔ ∃ j, 63 ≤ j ∧ Exact.imageBit c k e f j = true := by
  have h62 : ((scratchWord c k e f).sshiftRight (shiftCount k)).getLsbD 1 = Exact.imageBit c k e f 63 :=
    shifted_getMsbD hc k he hf (j := 62) (by omega)
  have h63 : ((scratchWord c k e f).sshiftRight (shiftCount k)).getLsbD 0 = Exact.imageBit c k e f 64 :=
    shifted_getMsbD hc k he hf (j := 63) (by omega)
  rw [image64, BitVec.getLsbD_or, stickyWord_getLsbD, BitVec.getLsbD_ushiftRight, Nat.add_zero, h62, lostBits, h63,
    decide_eq_true rfl, Bool.true_and, Bool.or_eq_true, Bool.or_eq_true, decide_eq_true_iff,
    scratchWord_pushedOut_iff hc k he hf]
  constructor
  · rintro (h | ⟨j, hj, h⟩ | h)
    · exact ⟨63, le_refl _, h⟩
    · exact ⟨j + 1, by omega, h⟩
    · exact ⟨64, by omega, h⟩
  · rintro ⟨j, hj, h⟩
    obtain rfl | rfl | hj : j = 63 ∨ j = 64 ∨ 65 ≤ j := by omega
    · exact .inl h
    · exact .inr (.inr h)
    · exact .inr (.inl ⟨j - 1, by omega, by rwa [Nat.sub_add_cancel (by omega)]⟩)

end

end Sys2Proof.Machine
end

section
/-! SUPPORT. Rounding the 64-bit image is rounding the exact image, and the special clauses of the rounding unit never
act on an image of the encoder (R90, R100 to R107). -/

namespace Sys2Proof.Machine

/-- Half a step, less one, plus the last kept bit carries exactly in the round-up cases of R102: the guard bit is set,
and a bit below it or the last kept bit. -/
theorem half_step_carry {M t : Nat} (g l : Bool) (ht : t < M) :
    (M * g.toNat + t + (M - 1 + l.toNat)) / (2 * M) = (g && (decide (t ≠ 0) || l)).toNat := by
  have hl : l.toNat ≤ 1 := Bool.toNat_le l
  cases g with
  | false =>
    rw [Bool.false_and, Bool.toNat_false]
    exact Nat.div_eq_of_lt (by omega)
  | true =>
    rw [Bool.true_and, Bool.toNat_true, Nat.mul_one]
    by_cases hup : t ≠ 0 ∨ l = true
    · have hcarry : 1 ≤ t + l.toNat := by
        rcases hup with h0 | rfl
        · omega
        · exact Nat.le_add_left _ _
      have hbool : (decide (t ≠ 0) || l) = true := by simpa using hup
      rw [hbool, Bool.toNat_true]
      exact Nat.div_eq_of_lt_le (by omega) (by omega)
    · obtain ⟨h0, rfl⟩ : t = 0 ∧ l = false := by simpa using hup
      rw [h0]
      exact Nat.div_eq_of_lt (by rw [Bool.toNat_false]; omega)

theorem halfUlp_toNat {c : Config} (hc : c.wf = true) : (halfUlp c).toNat = 2 ^ (63 - c.n) := by
  obtain ⟨hn, -, -⟩ := Config.wf_bounds hc
  exact Nat.mod_eq_of_lt (Nat.pow_lt_pow_right (by decide) (by omega))

/-- The addition of R101 does not leave the 64 bits. -/
theorem toNat_add_half {c : Config} (hc : c.wf = true) {img : Word} (h63 : img.getLsbD 63 = false) (l : Bool) :
    (img + ((halfUlp c - 1#64) + if l then 1#64 else 0#64)).toNat =
      img.toNat + (2 ^ (63 - c.n) - 1 + l.toNat) := by
  obtain ⟨hn, -, -⟩ := Config.wf_bounds hc
  have himg : img.toNat < 2 ^ 63 := BitVec.toNat_lt_of_msb_false (BitVec.msb_eq_getLsbD_last img ▸ h63)
  have hM : 2 ^ (63 - c.n) ≤ 2 ^ 58 := Nat.pow_le_pow_right (by decide) (by omega)
  have hM0 := Nat.two_pow_pos (63 - c.n)
  have hl : l.toNat ≤ 1 := Bool.toNat_le l
  have hbit : (if l then 1#64 else 0#64).toNat = l.toNat := by cases l <;> rfl
  rw [BitVec.toNat_add, BitVec.toNat_add, BitVec.toNat_sub, hbit, halfUlp_toNat hc, BitVec.toNat_ofNat]
  omega

/-- Below bit 63, adding "just under half an ULP" and truncating is rounding by guard and sticky (R102). -/
theorem roundNearestEven_eq_roundGuardSticky {c : Config} (hc : c.wf = true) {img : Word}
    (h63 : img.getLsbD 63 = false) : roundNearestEven c img = roundGuardSticky c img := by
  obtain ⟨hn, hn32, -⟩ := Config.wf_bounds hc
  have hwidth : 64 - c.n = 63 - c.n + 1 := by omega
  have hstep : 2 ^ (64 - c.n) = 2 * 2 ^ (63 - c.n) := by rw [hwidth, pow_succ']
  have hlow : img.toNat % 2 ^ (64 - c.n) =
      2 ^ (63 - c.n) * (guardBit c img).toNat + img.toNat % 2 ^ (63 - c.n) := by
    rw [hwidth, mod_two_pow_succ, BitVec.testBit_toNat, Nat.add_comm]
    rfl
  have hsplit := Nat.div_add_mod img.toNat (2 ^ (64 - c.n))
  rw [hlow, hstep] at hsplit
  rw [roundNearestEven, roundGuardSticky, keptBits, stickyBit, BitVec.toNat_ushiftRight, BitVec.toNat_ushiftRight,
    toNat_add_half hc h63, Nat.shiftRight_eq_div_pow, Nat.shiftRight_eq_div_pow, hstep,
    ← half_step_carry _ _ (Nat.mod_lt _ (Nat.two_pow_pos _)), ← Nat.mul_add_div (by positivity),
    ← Nat.add_assoc (2 * 2 ^ (63 - c.n) * _), hsplit]

namespace Exact

/-- The number a run of bits spells, read bit by bit: the last one is bit 0. -/
theorem ofMsbFirst_testBit (g : Nat → Bool) (n i : Nat) :
    (ofMsbFirst ((List.range n).map g)).testBit i = (decide (i < n) && g (n - 1 - i)) := by
  induction n generalizing i with
  | zero => simp [ofMsbFirst]
  | succ n ih =>
    rw [List.range_succ, List.map_append, List.map_singleton, ofMsbFirst_append, ← Nat.bit_val]
    cases i with
    | zero => simp
    | succ i =>
      simp [Nat.testBit_bit_succ, ih, Nat.sub_sub, Nat.add_comm 1]

theorem kept_testBit (c : Config) (k : Int) (e f i : Nat) :
    (kept c k e f).testBit i = (decide (i < c.n) && imageBit c k e f (c.n - 1 - i)) :=
  ofMsbFirst_testBit _ _ _

/-- Inside the encoder's range the regime ends within the kept bits, so both a set and a clear bit stand there, next to
the sign position. -/
theorem exists_imageBit {c : Config} {k : Int} (hk : regimeInRange c k = true) (e f : Nat) (b : Bool) :
    ∃ j, 1 ≤ j ∧ j < c.n ∧ imageBit c k e f j = b := by
  have hcount : shiftCount k + 2 < c.n := by
    rw [regimeInRange, decide_eq_true_iff] at hk
    rw [shiftCount]
    split <;> omega
  have hfirst : imageBit c k e f (shiftCount k + 1) = decide (0 ≤ k) := by
    rw [imageBit_succ, if_neg (lt_irrefl _), Nat.sub_self, scratchBits_zero]
  have hlast : imageBit c k e f (shiftCount k + 2) = !decide (0 ≤ k) := by
    rw [imageBit_succ, if_neg (by omega), Nat.add_sub_cancel_left, scratchBits_one]
  by_cases hb : b = decide (0 ≤ k)
  · exact ⟨shiftCount k + 1, by omega, by omega, hfirst.trans hb.symm⟩
  · exact ⟨shiftCount k + 2, by omega, by omega, hlast.trans (Bool.eq_not_of_ne hb).symm⟩

theorem kept_bounds {c : Config} {k : Int} (hk : regimeInRange c k = true) (e f : Nat) :
    1 ≤ kept c k e f ∧ kept c k e f + 2 ≤ 2 ^ (c.n - 1) := by
  have hbit : ∀ j, j < c.n → (kept c k e f).testBit (c.n - 1 - j) = imageBit c k e f j := by
    intro j hj
    rw [kept_testBit, decide_eq_true (by omega), Bool.true_and, Nat.sub_sub_self (by omega)]
  have hlt : kept c k e f < 2 ^ (c.n - 1) := by
    refine Nat.lt_pow_two_of_testBit _ fun i hi => ?_
    rw [kept_testBit, Nat.sub_eq_zero_of_le hi, imageBit_zero, Bool.and_false]
  have hne0 : kept c k e f ≠ 0 := by
    obtain ⟨j, -, hj, hset⟩ := exists_imageBit hk e f true
    intro h0
    simp [← hbit j hj, h0] at hset
  have hnemax : kept c k e f ≠ 2 ^ (c.n - 1) - 1 := by
    obtain ⟨j, hj1, hj, hclear⟩ := exists_imageBit hk e f false
    intro hmax
    rw [← hbit j hj, hmax, Nat.testBit_two_pow_sub_one, decide_eq_false_iff_not] at hclear
    omega
  omega

theorem rounded_bounds {c : Config} {k : Int} (hk : regimeInRange c k = true) (e f : Nat) :
    1 ≤ rounded c k e f ∧ rounded c k e f ≤ c.maxposBits := by
  obtain ⟨hlo, hhi⟩ := kept_bounds hk e f
  have hup := Bool.toNat_le (guard c k e f && (sticky c k e f || (kept c k e f).testBit 0))
  have hmax := maxposBits_add_one c
  rw [rounded]
  omega

end Exact

section
variable {c : Config} (hc : c.wf = true) (k : Int) {e f : Nat} (he : e < 2 ^ c.es) (hf : f < 2 ^ 52)
include hc he hf

theorem keptBits_image64 : keptBits c (image64 c k e f) = Exact.kept c k e f := by
  obtain ⟨hn, hn32, -⟩ := Config.wf_bounds hc
  refine Nat.eq_of_testBit_eq fun i => ?_
  rw [keptBits, BitVec.testBit_toNat, BitVec.getLsbD_ushiftRight, Exact.kept_testBit]
  by_cases hi : i < c.n
  · have hplace : 64 - c.n + i = 63 - (c.n - 1 - i) := by omega
    rw [hplace, image64_getLsbD hc k he hf (by omega), decide_eq_true hi, Bool.true_and]
  · rw [decide_eq_false hi, Bool.false_and]
    exact BitVec.getLsbD_of_ge _ _ (by omega)

theorem guardBit_image64 : guardBit c (image64 c k e f) = Exact.guard c k e f := by
  obtain ⟨-, hn32, -⟩ := Config.wf_bounds hc
  exact image64_getLsbD hc k he hf (by omega)

theorem lastKeptBit_image64 : lastKeptBit c (image64 c k e f) = (Exact.kept c k e f).testBit 0 := by
  rw [← keptBits_image64 hc k he hf, keptBits, BitVec.testBit_toNat, BitVec.getLsbD_ushiftRight]
  rfl

theorem stickyBit_image64 : stickyBit c (image64 c k e f) = Exact.sticky c k e f := by
  obtain ⟨hn, hn32, -⟩ := Config.wf_bounds hc
  rw [Bool.eq_iff_iff, stickyBit, decide_eq_true_iff, mod_two_pow_ne_zero_iff, Exact.sticky_iff]
  simp only [BitVec.testBit_toNat]
  constructor
  · rintro ⟨i, hi, hbit⟩
    rcases Nat.eq_zero_or_pos i with rfl | hpos
    · obtain ⟨j, hj, hset⟩ := (image64_getLsbD_zero_iff hc k he hf).mp hbit
      exact ⟨j, by omega, hset⟩
    · refine ⟨63 - i, by omega, ?_⟩
      rwa [← image64_getLsbD hc k he hf (by omega), Nat.sub_sub_self (by omega)]
  · rintro ⟨j, hj, hset⟩
    by_cases hj63 : j < 63
    · exact ⟨63 - j, by omega, (image64_getLsbD hc k he hf hj63).trans hset⟩
    · exact ⟨0, by omega, (image64_getLsbD_zero_iff hc k he hf).mpr ⟨j, by omega, hset⟩⟩

/-- The two images round alike by guard and sticky, and the 64-bit one leaves bit 63 clear (R90, R94). -/
theorem roundNearestEven_image64 : roundNearestEven c (image64 c k e f) = Exact.rounded c k e f := by
  have h63 : (image64 c k e f).getLsbD 63 = false := image64_getLsbD hc k he hf (j := 0) (by omega)
  rw [roundNearestEven_eq_roundGuardSticky hc h63, roundGuardSticky, keptBits_image64 hc k he hf,
    guardBit_image64 hc k he hf, stickyBit_image64 hc k he hf, lastKeptBit_image64 hc k he hf, Exact.rounded]

/-- An image with kept bits is more than half an ULP (R107). -/
theorem image64_ne_halfUlp {k : Int} (hk : regimeInRange c k = true) : image64 c k e f ≠ halfUlp c := by
  obtain ⟨hn, hn32, -⟩ := Config.wf_bounds hc
  obtain ⟨hlo, -⟩ := Exact.kept_bounds hk e f
  intro h
  have hkept : keptBits c (halfUlp c) = 0 := by
    rw [keptBits, BitVec.toNat_ushiftRight, halfUlp_toNat hc, Nat.shiftRight_eq_div_pow]
    exact Nat.div_eq_of_lt (Nat.pow_lt_pow_right (by decide) (by omega))
  rw [← keptBits_image64 hc k he hf, h, hkept] at hlo
  omega

end

/-- The correction asks for a budget below `|k|`, and a legal one is not (R104, R107). -/
theorem corrects_eq_false {c : Config} (hc : c.wf = true) {k : Int} (hk : regimeInRange c k = true) :
    corrects c k = false := by
  have hbudget := Config.wf_budget hc
  rw [regimeInRange, decide_eq_true_iff] at hk
  rw [corrects, decide_eq_false_iff_not]
  omega

/-- Inside the encoder's range the rounding unit gives the exact form's rounded pattern (R94, R107). -/
theorem roundImage_image64 {c : Config} (hc : c.wf = true) {k : Int} (hk : regimeInRange c k = true) {e f : Nat}
    (he : e < 2 ^ c.es) (hf : f < 2 ^ 52) : roundImage c (image64 c k e f) k = Exact.rounded c k e f := by
  simp only [roundImage, corrects_eq_false hc hk, roundDegenerate, if_neg (image64_ne_halfUlp hc he hf hk),
    roundNearestEven_image64 hc k he hf, Bool.false_eq_true, if_false]

end Sys2Proof.Machine
end

section
/-! SUPPORT. The datapath's pattern is that of the exact form (R94), and what ENC and SETVAL do by it (R96, R97). -/

namespace Sys2Proof.Machine

/-- Between the two clamps the regime index is in the encoder's range (R88). -/
theorem regimeInRange_of_between {c : Config} (hc : c.wf = true) {d : Word} (htop : ¬atLeastMaxpos c d = true)
    (hbottom : ¬belowMinpos c d = true) : regimeInRange c (regimeIndex c (unbiased d)) = true := by
  obtain ⟨hn, -, -⟩ := Config.wf_bounds hc
  rw [belowMinpos, decide_eq_true_iff] at hbottom
  rw [atLeastMaxpos, decide_eq_true_iff] at htop
  have hstep : (0 : Int) < 2 ^ c.es := by positivity
  have hT : (c.bigT : Int) = ((c.n : Int) - 2) * 2 ^ c.es := by
    rw [Config.bigT, Nat.mul_comm]
    push_cast [show 2 ≤ c.n by omega]
    rfl
  have hlo : -((c.n : Int) - 2) ≤ unbiased d / 2 ^ c.es := by
    rw [Int.le_ediv_iff_mul_le hstep, Int.neg_mul, ← hT]
    omega
  have hhi : unbiased d / 2 ^ c.es < (c.n : Int) - 2 := by
    rw [Int.ediv_lt_iff_lt_mul hstep, ← hT]
    omega
  rw [regimeIndex_eq, regimeInRange, decide_eq_true_iff]
  omega

theorem exponentPart_lt (c : Config) (x : Int) : exponentPart c x < 2 ^ c.es := by
  have hlt := Int.emod_lt_of_pos x (b := 2 ^ c.es) (by positivity)
  rw [← exponentPart_eq] at hlt
  exact_mod_cast hlt

/-- What neither clamp takes is rounded, by the same regime index, exponent and fraction (R87, R90). -/
theorem Exact.magnitude_of_between {c : Config} {d : Word} {v : ℚ} (hmax : ¬c.maxpos ≤ |v|)
    (hmin : ¬|v| < c.minpos) :
    Exact.magnitude c d v =
      Exact.rounded c (regimeIndex c (unbiased d)) (exponentPart c (unbiased d)) (Binary64.frac d) := by
  have he : exponentPart c (unbiased d) = (unbiased d % 2 ^ c.es).toNat := by
    rw [← exponentPart_eq, Int.toNat_natCast]
  rw [Exact.magnitude, if_neg hmax, if_neg hmin, regimeIndex_eq, he]
  rfl

/-- Case by case the two forms give one magnitude pattern: both clamp alike, and otherwise both round (R84 to R94). It is
a positive pattern: neither zero nor with the sign bit set (R95). -/
theorem magnitudePattern_eq_exact {c : Config} (hc : c.wf = true) {d : Word} {v : ℚ} (hv : Binary64.val d = some v) :
    magnitudePattern c d = Exact.magnitude c d v ∧
      1 ≤ Exact.magnitude c d v ∧ Exact.magnitude c d v ≤ c.maxposBits := by
  have hone := one_le_maxposBits hc
  by_cases hmax : c.maxpos ≤ |v|
  · rw [magnitudePattern_of_maxpos_le hv hmax, Exact.magnitude, if_pos hmax]
    exact ⟨rfl, hone, le_refl _⟩
  by_cases hmin : |v| < c.minpos
  · rw [magnitudePattern_of_lt_minpos hc hv hmin, Exact.magnitude, if_neg hmax, if_pos hmin]
    exact ⟨rfl, le_refl _, hone⟩
  have htop : ¬atLeastMaxpos c d = true := mt (atLeastMaxpos_iff hv).mp hmax
  have hbottom : ¬belowMinpos c d = true := mt (belowMinpos_iff hc hv).mp hmin
  have hk := regimeInRange_of_between hc htop hbottom
  rw [magnitudePattern, if_neg htop, if_neg hbottom, Exact.magnitude_of_between hmax hmin]
  exact ⟨roundImage_image64 hc hk (exponentPart_lt c _) (Binary64.frac_lt d), Exact.rounded_bounds hk _ _⟩

/-- The datapath gives the exact form's pattern, for every word (R94). -/
theorem positEncode_eq_exact {c : Config} (hc : c.wf = true) (d : Word) :
    positEncode c d = Exact.positEncode c d := by
  cases hv : Binary64.val d with
  | none => simp only [positEncode_of_val_eq_none hv, Exact.positEncode, hv]
  | some v =>
    by_cases hv0 : v = 0
    · subst hv0
      simp only [positEncode_zero hv, Exact.positEncode, hv, if_true]
    · obtain ⟨hp, -, hhi⟩ := magnitudePattern_eq_exact hc hv
      simp only [positEncode_of_magnitudePattern hv hv0 hp (hhi.trans_lt (maxposBits_lt hc)), Exact.positEncode, hv,
        if_neg hv0]

/-- A port carries the exact form's pattern, an `n`-bit one like the datapath's (R39). -/
theorem rawResult_exactPattern_toNat {c : Config} (hc : c.wf = true) (d : Word) :
    (rawResult (Exact.positEncode c d)).toNat = Exact.positEncode c d := by
  rw [← positEncode_eq_exact hc]
  exact rawResult_toNat (pattern_lt_word hc (positEncode_lt (one_le_width hc) d))

/-- Settles O15: ENC drives the datapath's pattern, which is the exact form's. -/
theorem encReturnsExactPattern : Obligations.EncReturnsExactPattern := fun s a hc =>
  ⟨decode_encode (.enc a), _, positEncode_eq_exact hc a ▸ exec_enc a s, rawResult_exactPattern_toNat hc a⟩

/-- Settles O16: SETVAL stores the datapath's pattern, which is the exact form's, and drives it. -/
theorem setvalStoresExactPattern : Obligations.SetvalStoresExactPattern := fun s a hc =>
  ⟨decode_encode (.setval a), _, positEncode_eq_exact hc a ▸ exec_setval a s, rawResult_exactPattern_toNat hc a⟩

end Sys2Proof.Machine
end

section
/-! SUPPORT. Odd symmetry of the encoder: binary64 negation flips the sign and nothing else, and the two's complement
undoes itself (R95). -/

namespace Sys2Proof.Machine

namespace Binary64

/-- Negation flips bit 63 and leaves the others alone (G5). -/
theorem neg_getLsbD (d : Word) (i : Nat) :
    (neg d).getLsbD i = (d.getLsbD i ^^ decide (i = 63)) := by
  have htop : 0x8000000000000000#64 = BitVec.twoPow 64 63 := rfl
  rw [neg, BitVec.getLsbD_xor, htop, BitVec.getLsbD_twoPow, decide_eq_true (by decide), Bool.true_and]
  simp only [eq_comm]

theorem sign_neg (d : Word) : sign (neg d) = !sign d := by
  rw [sign, neg_getLsbD, decide_eq_true rfl, Bool.xor_true]
  rfl

/-- So every field below bit 63 stays as it is. -/
theorem extractLsb'_neg (d : Word) {lo w : Nat} (h : lo + w ≤ 63) :
    (neg d).extractLsb' lo w = d.extractLsb' lo w := by
  refine BitVec.eq_of_getLsbD_eq fun i hi => ?_
  have hbelow : ¬lo + i = 63 := by omega
  rw [BitVec.getLsbD_extractLsb', BitVec.getLsbD_extractLsb', neg_getLsbD, decide_eq_false hbelow, Bool.xor_false]

theorem expo_neg (d : Word) : expo (neg d) = expo d := by
  rw [expo, extractLsb'_neg d (by omega)]
  rfl

theorem frac_neg (d : Word) : frac (neg d) = frac d := by
  rw [frac, extractLsb'_neg d (by omega)]
  rfl

theorem val_neg {d : Word} {v : ℚ} (hv : val d = some v) : val (neg d) = some (-v) := by
  have hval : val (neg d) = (val d).map fun u => -u := by
    rw [val, val, expo_neg, frac_neg, sign_neg, signFactor_not]
    split_ifs <;> simp
  rw [hval, hv, Option.map_some]

end Binary64

theorem magnitudePattern_neg (c : Config) (d : Word) : magnitudePattern c (Binary64.neg d) = magnitudePattern c d := by
  rw [magnitudePattern, atLeastMaxpos, belowMinpos, unbiased, Binary64.expo_neg, Binary64.frac_neg]
  rfl

/-- The two's complement of a pattern other than zero undoes itself. -/
theorem negBits_negBits {c : Config} {p : Nat} (h0 : 0 < p) (hp : p < 2 ^ c.n) : c.negBits (c.negBits p) = p := by
  have hneg := Config.negBits_of_pos h0 hp
  rw [Config.negBits_of_pos (by omega) (Config.negBits_lt c p), hneg, Nat.sub_sub_self hp.le]

/-- Settles O42: a finite non-zero word and its negation have one magnitude pattern, between 1 and `2^(n-1) - 1`, and
opposite signs. -/
theorem encodeSignSymmetry : Obligations.EncodeSignSymmetry := by
  intro c d v hc hv hv0
  obtain ⟨hp, hlo, hhi⟩ := magnitudePattern_eq_exact hc hv
  have hlt := hhi.trans_lt (maxposBits_lt hc)
  have hmax := maxposBits_add_one c
  have hhalf := Config.two_pow_n (one_le_width hc)
  have hsign := val_neg_iff hv hv0
  have henc := positEncode_of_magnitudePattern hv hv0 hp hlt
  have hflip := positEncode_of_magnitudePattern (Binary64.val_neg hv) (neg_ne_zero.mpr hv0)
    ((magnitudePattern_neg c d).trans hp) hlt
  rw [Binary64.sign_neg] at hflip
  rw [hflip, henc, hp, Int.toNat_natCast]
  have hneg := Config.negBits_of_pos hlo hlt
  cases hs : Binary64.sign d with
  | false =>
    have hnonneg : ¬v < 0 := by simp [hsign, hs]
    refine ⟨rfl, rfl, fun _ => ⟨hlo, ?_⟩, fun h => absurd h hnonneg⟩
    rw [if_neg Bool.false_ne_true]
    omega
  | true =>
    have hnegative : v < 0 := by simp [hsign, hs]
    refine ⟨rfl, (negBits_negBits hlo hlt).symm, fun h => absurd h hnegative.not_gt, fun _ => ?_⟩
    rw [if_pos rfl, hneg]
    omega

end Sys2Proof.Machine
end

section
/-! SUPPORT. The round trip of a positive pattern (R130): the encoder reads the decoder's fields off the decoded word,
and the image of these fields is the pattern itself, followed by zeros. -/

namespace Sys2Proof.Machine

/-- A field of `ne` bits moved to the top of `w` bits, as a list: those bits, then zeros. -/
theorem msbFirst_exponentField_getD {w p avail ne : Nat} (hw : ne ≤ w) (hav : ne ≤ avail) (i : Nat) :
    (Exact.msbFirst (exponentField w p avail ne) w)[i]?.getD false =
      (decide (i < ne) && p.testBit (avail - 1 - i)) := by
  rw [Exact.msbFirst_getD]
  by_cases hi : i < w
  · rw [exponentField_testBit hw hav hi, decide_eq_true hi, Bool.true_and]
  · rw [decide_eq_false hi, decide_eq_false (by omega), Bool.false_and, Bool.false_and]

/-- The fraction, moved to the top of a binary64 fraction as the exponent is to the top of its `es` bits (R72). -/
def wideFrac (f : PositFields) : Nat := f.frac * 2 ^ (52 - f.m)

theorem wideFrac_positFields (c : Config) (p : Nat) :
    wideFrac (positFields c p) = exponentField 52 p (positFields c p).m (positFields c p).m := by
  rw [wideFrac, positFields_frac, exponentField, Nat.sub_self]

theorem decide_r_nonneg {c : Config} (hc : c.wf = true) (p : Nat) :
    decide (0 ≤ (positFields c p).r) = (positFields c p).b := by
  have h1 := one_le_kRun hc p
  cases hb : (positFields c p).b with
  | false =>
    rw [r_eq_of_b_eq_false hb, decide_eq_false_iff_not]
    omega
  | true =>
    rw [r_eq_of_b_eq_true hb, decide_eq_true_iff]
    omega

/-- The last bit of the run is the first of the regime's end, so the shift of R92 repeats the others. -/
theorem shiftCount_r {c : Config} (hc : c.wf = true) (p : Nat) :
    shiftCount (positFields c p).r = (positFields c p).kRun - 1 := by
  have h1 := one_le_kRun hc p
  rw [shiftCount]
  cases hb : (positFields c p).b with
  | false =>
    rw [r_eq_of_b_eq_false hb, if_neg (by omega)]
    omega
  | true =>
    rw [r_eq_of_b_eq_true hb, if_pos (by omega)]
    omega

section
variable {c : Config} (hc : c.wf = true) {p : Nat}
include hc

theorem m_le (p : Nat) : (positFields c p).m ≤ 52 := by
  obtain ⟨-, hn, -⟩ := Config.wf_bounds hc
  rw [positFields_m]
  omega

theorem wideFrac_lt (p : Nat) : wideFrac (positFields c p) < 2 ^ 52 :=
  fraction_moved_up_lt (m_le hc p) (bitSlice_lt _ _ _)

/-- Behind the regime the image of a pattern's fields has the bits below the pattern's terminator, then zeros (R64, R65,
R89). -/
theorem scratchBits_tail (p : Nat) (k : Int) (i : Nat) :
    (Exact.scratchBits c k (positFields c p).e (wideFrac (positFields c p)))[2 + i]?.getD false =
      (decide (i < c.n - 2 - (positFields c p).kRun) && p.testBit (c.n - 2 - (positFields c p).kRun - 1 - i)) := by
  have hne := positFields_ne c p
  have hm := positFields_m c p
  rw [Exact.scratchBits, List.getElem?_append_right (by simp), Exact.msbFirst_length, Nat.add_sub_cancel_left,
    Exact.append_getD, Exact.msbFirst_length, positFields_e, wideFrac_positFields,
    msbFirst_exponentField_getD (by omega) (by omega), msbFirst_exponentField_getD (m_le hc p) (le_refl _)]
  by_cases hexp : i < (positFields c p).ne
  · rw [decide_eq_true hexp, decide_eq_false (show ¬c.es ≤ i by omega), Bool.false_and, Bool.or_false,
      decide_eq_true (show i < c.n - 2 - (positFields c p).kRun by omega)]
  rw [decide_eq_false hexp, Bool.false_and, Bool.false_or]
  by_cases hin : c.es ≤ i ∧ i - c.es < (positFields c p).m
  · obtain ⟨hes, hfrac⟩ := hin
    have hplace : (positFields c p).m - 1 - (i - c.es) = c.n - 2 - (positFields c p).kRun - 1 - i := by omega
    rw [decide_eq_true hes, decide_eq_true hfrac, Bool.true_and, hplace,
      decide_eq_true (show i < c.n - 2 - (positFields c p).kRun by omega)]
  · rw [← Bool.and_assoc, ← Bool.decide_and, decide_eq_false hin,
      decide_eq_false (show ¬i < c.n - 2 - (positFields c p).kRun by omega), Bool.false_and, Bool.false_and]

/-- The image of a positive pattern's fields is the pattern, most significant bit first, then zeros (R89). -/
theorem imageBit_positFields (hpos : p < 2 ^ (c.n - 1)) (hk : (positFields c p).kRun < c.n - 1) (j : Nat) :
    Exact.imageBit c (positFields c p).r (positFields c p).e (wideFrac (positFields c p)) j =
      (decide (j < c.n) && p.testBit (c.n - 1 - j)) := by
  have h1 := one_le_kRun hc p
  cases j with
  | zero => rw [Exact.imageBit_zero, Nat.sub_zero, Nat.testBit_lt_two_pow hpos, Bool.and_false]
  | succ j =>
    rw [Exact.imageBit_succ, shiftCount_r hc, decide_r_nonneg hc]
    have hrun : j < (positFields c p).kRun → p.testBit (c.n - 1 - (j + 1)) = (positFields c p).b := fun hj => by
      rw [Nat.add_comm j, ← Nat.sub_sub]
      exact runLength_bits hj
    rcases lt_trichotomy j (positFields c p).kRun with hj | rfl | hj
    · rw [hrun hj, decide_eq_true (by omega), Bool.true_and]
      split
      next => rfl
      next hlast => rw [show j - ((positFields c p).kRun - 1) = 0 by omega, Exact.scratchBits_zero, decide_r_nonneg hc]
    · have hstop : p.testBit (c.n - 1 - ((positFields c p).kRun + 1)) ≠ (positFields c p).b := by
        rw [Nat.add_comm _ 1, ← Nat.sub_sub]
        exact runLength_stops hk
      rw [if_neg (by omega), Nat.sub_sub_self h1, Exact.scratchBits_one, decide_r_nonneg hc,
        decide_eq_true (by omega), Bool.true_and, Bool.eq_not_of_ne hstop]
    · have hplace : j - ((positFields c p).kRun - 1) = 2 + (j - (positFields c p).kRun - 1) := by omega
      have hin : j - (positFields c p).kRun - 1 < c.n - 2 - (positFields c p).kRun ↔ j + 1 < c.n := by omega
      rw [if_neg (by omega), hplace, scratchBits_tail hc, decide_eq_decide.mpr hin]
      congr 2
      omega

/-- So nothing is rounded off (R90). -/
theorem rounded_positFields (hpos : p < 2 ^ (c.n - 1)) (hk : (positFields c p).kRun < c.n - 1) :
    Exact.rounded c (positFields c p).r (positFields c p).e (wideFrac (positFields c p)) = p := by
  have hguard : Exact.guard c (positFields c p).r (positFields c p).e (wideFrac (positFields c p)) = false := by
    rw [Exact.guard, imageBit_positFields hc hpos hk, decide_eq_false (lt_irrefl _), Bool.false_and]
  rw [Exact.rounded, hguard, Bool.false_and, Bool.toNat_false, Nat.add_zero]
  refine Nat.eq_of_testBit_eq fun i => ?_
  rw [Exact.kept_testBit]
  by_cases hi : i < c.n
  · rw [imageBit_positFields hc hpos hk, decide_eq_true hi, decide_eq_true (by omega), Bool.true_and, Bool.true_and,
      Nat.sub_sub_self (by omega)]
  · have hlt : p < 2 ^ i := hpos.trans_le (Nat.pow_le_pow_right (by decide) (by omega))
    rw [decide_eq_false hi, Bool.false_and, Nat.testBit_lt_two_pow hlt]

end

/-- The encoder takes `X = 2^es * r + e` apart as the decoder put it together (R66, R87). -/
theorem regimeIndex_scaleX (c : Config) (p : Nat) :
    regimeIndex c (scaleX c (positFields c p)) = (positFields c p).r := by
  have he : ((positFields c p).e : Int) < 2 ^ c.es := by exact_mod_cast positFields_e_lt c p
  rw [regimeIndex_eq, scaleX, Int.add_comm, Int.add_mul_ediv_left _ _ (by positivity),
    Int.ediv_eq_zero_of_lt (by positivity) he, Int.zero_add]

theorem exponentPart_scaleX (c : Config) (p : Nat) :
    exponentPart c (scaleX c (positFields c p)) = (positFields c p).e := by
  rw [exponentPart, regimeIndex_scaleX, scaleX, Int.mul_comm, add_sub_cancel_left, Int.toNat_natCast]

theorem bigT_cast {c : Config} (hc : c.wf = true) : (c.bigT : Int) = ((c.n : Int) - 2) * 2 ^ c.es := by
  obtain ⟨hn, -, -⟩ := Config.wf_bounds hc
  rw [Config.bigT, Nat.mul_comm]
  push_cast [show 2 ≤ c.n by omega]
  rfl

/-- With a terminator the regime stays below its largest value, and with it `X` below `T`. -/
theorem scaleX_lt_bigT {c : Config} (hc : c.wf = true) {p : Nat} (hk : (positFields c p).kRun < c.n - 1) :
    scaleX c (positFields c p) < c.bigT := by
  have hr := r_le_of_kRun_lt hc hk
  rw [bigT_cast hc, ← Int.ediv_lt_iff_lt_mul (by positivity), ← regimeIndex_eq, regimeIndex_scaleX]
  omega

/-- A pattern whose run of ones reaches bit 0 is the largest one, and `X` is `T`. -/
theorem maxpos_of_full_run {c : Config} (hc : c.wf = true) {p : Nat} (hp : isFinitePattern c p = true)
    (hpos : p < 2 ^ (c.n - 1)) (hk : (positFields c p).kRun = c.n - 1) :
    p = c.maxposBits ∧ scaleX c (positFields c p) = c.bigT := by
  obtain ⟨hn, -, -⟩ := Config.wf_bounds hc
  have hb : (positFields c p).b = true := by
    by_contra hb
    have := kRun_lt_of_b_eq_false hc hp (Bool.eq_false_of_not_eq_true hb)
    omega
  have hmod := mod_eq_kRun_add c p
  rw [hk, hb, Nat.sub_self, Nat.mod_eq_of_lt hpos, pow_zero, Nat.mod_one, Bool.toNat_true] at hmod
  have hmax := maxposBits_add_one c
  refine ⟨by omega, ?_⟩
  rw [scaleX, r_eq_of_b_eq_true hb, hk, (fields_of_full_run hk).1, bigT_cast hc]
  push_cast [show 1 ≤ c.n by omega]
  ring

theorem unbiased_assemble {s : Bool} {x : Int} {f : Nat} (h1 : -1023 ≤ x) (h2 : x ≤ 1024) :
    unbiased (Binary64.assemble s x f) = x := by
  rw [unbiased, Binary64.expo_assemble h1 h2, Int.add_sub_cancel]

/-- Between the two clamps the datapath gives the exact form's rounded pattern (R88, R94). -/
theorem magnitudePattern_of_between {c : Config} (hc : c.wf = true) {d : Word} (htop : ¬atLeastMaxpos c d = true)
    (hbottom : ¬belowMinpos c d = true) :
    magnitudePattern c d =
      Exact.rounded c (regimeIndex c (unbiased d)) (exponentPart c (unbiased d)) (Binary64.frac d) := by
  rw [magnitudePattern, if_neg htop, if_neg hbottom]
  exact roundImage_image64 hc (regimeInRange_of_between hc htop hbottom) (exponentPart_lt c _) (Binary64.frac_lt d)

/-- A word with a positive pattern's exponent and fraction has that pattern as its magnitude: the largest one is the
clamp's, and what lies below `maxpos` is rounded without loss. -/
theorem magnitudePattern_of_fields {c : Config} (hc : c.wf = true) {p : Nat} (hp : isFinitePattern c p = true)
    (hpos : p < 2 ^ (c.n - 1)) {d : Word} (hx : unbiased d = scaleX c (positFields c p))
    (hfrac : Binary64.frac d = wideFrac (positFields c p)) : magnitudePattern c d = p := by
  obtain ⟨-, -, hT⟩ := Config.wf_bounds hc
  obtain ⟨hlo, -, -⟩ := scaleX_bounds hc hp
  have hexpo : (Binary64.expo d : Int) = scaleX c (positFields c p) + 1023 := by
    rw [← hx, unbiased, Int.sub_add_cancel]
  rcases (kRun_le c p).eq_or_lt with hk | hk
  · obtain ⟨hmax, hscale⟩ := maxpos_of_full_run hc hp hpos hk
    have htop : atLeastMaxpos c d = true := by
      rw [atLeastMaxpos, decide_eq_true_iff, hx]
      omega
    rw [magnitudePattern, if_pos htop, ← hmax]
  · have hhi := scaleX_lt_bigT hc hk
    have htop : ¬atLeastMaxpos c d = true := by
      rw [atLeastMaxpos, decide_eq_true_iff, hx]
      omega
    have hbottom : ¬belowMinpos c d = true := by
      rw [belowMinpos, decide_eq_true_iff, hx]
      omega
    rw [magnitudePattern_of_between hc htop hbottom, hx, hfrac, regimeIndex_scaleX, exponentPart_scaleX,
      rounded_positFields hc hpos hk]

/-- A positive pattern's word is that of the field table's first row (R72). -/
theorem positDecodeF64_of_pos {c : Config} {p : Nat} (h0 : p ≠ 0) (hpos : p < 2 ^ (c.n - 1)) :
    positDecodeF64 c p = Binary64.assemble false (scaleX c (positFields c p)) (wideFrac (positFields c p)) := by
  have hs : (positFields c p).s = false := Nat.testBit_lt_two_pow hpos
  rw [positDecodeF64_fields h0 hpos.ne, fieldsF64, if_pos hs]
  rfl

theorem positEncode_positDecodeF64_of_pos {c : Config} (hc : c.wf = true) {p : Nat}
    (hp : isFinitePattern c p = true) (hpos : p < 2 ^ (c.n - 1)) : positEncode c (positDecodeF64 c p) = p := by
  obtain ⟨-, -, hT⟩ := Config.wf_bounds hc
  obtain ⟨hlt, h0, -⟩ := isFinitePattern_iff.mp hp
  obtain ⟨hlo, hhi, -⟩ := scaleX_bounds hc hp
  have hval := Binary64.val_assemble (s := false) (x := scaleX c (positFields c p)) (by omega) (by omega)
    (wideFrac_lt hc p)
  have hmag := magnitudePattern_of_fields hc hp hpos (unbiased_assemble (s := false) (by omega) (by omega))
    (Binary64.frac_assemble (wideFrac_lt hc p))
  rw [positDecodeF64_of_pos h0 hpos, positEncode_of_magnitudePattern hval (Binary64.normal_ne_zero _ _ _) hmag hlt,
    Binary64.sign_assemble, if_neg Bool.false_ne_true]

end Sys2Proof.Machine
end

section
/-! SUPPORT. The round trip of every pattern (R130): decoding turns the two's complement into a binary64 negation,
and encoding turns the negation back. -/

namespace Sys2Proof.Machine

/-- The sign stands in bit 63 of the word alone, the bit that negation flips (R36, G5). -/
theorem Binary64.neg_assemble (s : Bool) (x : Int) (f : Nat) : neg (assemble s x f) = assemble (!s) x f := by
  refine BitVec.eq_of_getLsbD_eq fun i hi => ?_
  rw [neg_getLsbD, assemble_bit, assemble_bit]
  by_cases h63 : i = 63
  · subst h63
    simp
  · rw [decide_eq_false h63, Bool.xor_false, if_pos (show i - 52 < 11 by omega), if_pos (show i - 52 < 11 by omega)]

theorem Binary64.normal_not (s : Bool) (x : Int) (f : Nat) : normal (!s) x f = -normal s x f := by
  rw [normal, normal, signFactor_not, neg_mul, neg_mul]

/-- A pattern and its two's complement decode to a word and its negation: their values are opposite, and `F64` gives a
normal value one word (R68, R72). -/
theorem positDecodeF64_negBits {c : Config} (hc : c.wf = true) {p : Nat} (hp : isFinitePattern c p = true) :
    positDecodeF64 c (c.negBits p) = Binary64.neg (positDecodeF64 c p) := by
  have hsign : (positFields c (c.negBits p)).s = !(positFields c p).s := (negBits_parts hc hp).2
  obtain ⟨x, f, hf, hx1, hx2, hword, hvalue⟩ := positDecodeF64_normal hc hp
  obtain ⟨y, g, hg, hy1, hy2, hword', hvalue'⟩ := positDecodeF64_normal hc (isFinitePattern_negBits hc hp)
  have hopposite := decodeSignSymmetry c p hc hp
  rw [hvalue, hvalue', hsign, Decoded.real, Decoded.real, Option.map_some, ← Binary64.normal_not] at hopposite
  have hsame := congrArg Binary64.f64 (Option.some.inj hopposite)
  rw [Binary64.f64_normal _ hg hy1 hy2, Binary64.f64_normal _ hf hx1 hx2] at hsame
  rw [hword, hword', hsign, Binary64.neg_assemble, Option.some.inj hsame]

/-- The negation of a decoded pattern encodes to the two's complement, since the encoder is odd-symmetric (R68, R95). -/
theorem positEncode_neg_positDecodeF64 {c : Config} (hc : c.wf = true) {p : Nat} (hp : isFinitePattern c p = true) :
    positEncode c (Binary64.neg (positDecodeF64 c p)) = c.negBits (positEncode c (positDecodeF64 c p)) := by
  obtain ⟨x, f, hf, hx1, hx2, hword, -⟩ := positDecodeF64_normal hc hp
  obtain ⟨-, hodd, -⟩ :=
    encodeSignSymmetry c _ _ hc (Binary64.val_assemble hx1 hx2 hf) (Binary64.normal_ne_zero _ _ _)
  rw [hword, hodd]

/-- A negative pattern is the two's complement of a positive one, which makes the round trip (R68, R95). -/
theorem positEncode_positDecodeF64_of_neg {c : Config} (hc : c.wf = true) {p : Nat}
    (hp : isFinitePattern c p = true) (hneg : 2 ^ (c.n - 1) < p) : positEncode c (positDecodeF64 c p) = p := by
  obtain ⟨hlt, -, -⟩ := isFinitePattern_iff.mp hp
  have h0 : 0 < p := Nat.zero_lt_of_lt hneg
  have hq := isFinitePattern_negBits hc hp
  have hpos : c.negBits p < 2 ^ (c.n - 1) := by
    have := Config.two_pow_n (one_le_width hc)
    rw [Config.negBits_of_pos h0 hlt]
    omega
  calc positEncode c (positDecodeF64 c p)
      = positEncode c (Binary64.neg (positDecodeF64 c (c.negBits p))) := by
        rw [← positDecodeF64_negBits hc hq, negBits_negBits h0 hlt]
    _ = c.negBits (c.negBits p) := by
        rw [positEncode_neg_positDecodeF64 hc hq, positEncode_positDecodeF64_of_pos hc hq hpos]
    _ = p := negBits_negBits h0 hlt

theorem positEncode_of_isNaN {c : Config} {d : Word} (hd : Binary64.isNaN d = true) : positEncode c d = c.narBits := by
  have hexpo : Binary64.expo d = 2047 := by
    rw [Binary64.isNaN, Bool.and_eq_true, beq_iff_eq] at hd
    exact hd.1
  exact positEncode_of_val_eq_none ((val_eq_none_iff d).mpr hexpo)

/-- Settles O46: zero and NaR by their own words, a positive pattern since its fields are what the encoder reads off the
decoded word, a negative one through its two's complement. -/
theorem encodeDecodeRoundTrip : Obligations.EncodeDecodeRoundTrip := by
  intro c p hc hp
  by_cases h0 : p = 0
  · subst h0
    rw [positDecodeF64_zero]
    exact positEncode_zero ((val_eq_zero_iff 0#64).mpr ⟨rfl, rfl⟩)
  rcases lt_trichotomy p c.narBits with hpos | rfl | hneg
  · exact positEncode_positDecodeF64_of_pos hc (isFinitePattern_iff.mpr ⟨hp, h0, hpos.ne⟩) hpos
  · rw [positDecodeF64_nar, positEncode_of_isNaN (Config.wf_nan hc)]
  · exact positEncode_positDecodeF64_of_neg hc (isFinitePattern_iff.mpr ⟨hp, h0, hneg.ne'⟩) hneg

end Sys2Proof.Machine
end

section
/-! SUPPORT. The format guard of the host's two-operand operations, and equality behind it (R121, R126). -/

namespace Sys2Proof.Machine

/-- Settles O51: every two-operand operation is the guard on its result. -/
theorem formatGuardPrecedesEveryBinaryOperation : Obligations.FormatGuardPrecedesEveryBinaryOperation := by
  intro op a b
  rw [← sameFormat_iff]
  constructor
  · intro hdiffer
    have hguard {α : Type} (x : α) : formatGuard a b x = .fault .formatMismatch :=
      formatGuard_differ (Bool.eq_false_of_not_eq_true hdiffer) x
    exact ⟨hguard _, hguard _, hguard _, hguard _, hguard _, hguard _, hguard _⟩
  · intro hsame
    have hguard {α : Type} (x : α) : formatGuard a b x = .next x := formatGuard_same hsame x
    exact ⟨⟨_, hguard _, rfl, rfl⟩, ⟨_, hguard _⟩, ⟨_, hguard _⟩, ⟨_, hguard _⟩, ⟨_, hguard _⟩,
      ⟨_, hguard _⟩, ⟨_, hguard _⟩⟩

/-- Settles O55: the guard lets the comparison of the two patterns through. -/
theorem equalityIsBitwise : Obligations.EqualityIsBitwise := by
  intro a b hsame
  have hne : (a.bits != b.bits) = decide (a.bits ≠ b.bits) := (decide_not).symm
  rw [Posit.equal, Posit.notEqual, formatGuard_same hsame, formatGuard_same hsame, hne, beq_eq_decide]
  exact ⟨rfl, rfl⟩

end Sys2Proof.Machine
end

section
/-! SUPPORT. Every command completes (R140). -/

namespace Sys2Proof.Machine

/-- Settles O17: a command answers by driving a result on a state, whether or not it has written `BITS` first. -/
theorem noCommandFails : Obligations.NoCommandFails := by
  intro i s
  obtain ⟨r, h⟩ | ⟨a, -, h⟩ | ⟨a, -, h⟩ := exec_cases i s
  · exact ⟨_, r, h, State.respond_res s r⟩
  · exact ⟨_, _, h, State.respond_res _ _⟩
  · exact ⟨_, _, h, State.respond_res _ _⟩

end Sys2Proof.Machine
end

section
/-! SUPPORT. Construction, one equation per outcome (R160). -/

namespace Sys2Proof.Machine

/-- The envelope of R4 on the integers that construction is given. -/
theorem supported_toNat_iff {n es : Int} (hn : 5 ≤ n) :
    supported n.toNat es.toNat = true ↔ n ≤ 32 ∧ 2 ^ es.toNat * (n - 2) ≤ 1022 := by
  lift n to ℕ using by omega
  have hT : ((2 ^ es.toNat * (n - 2) : Nat) : Int) = 2 ^ es.toNat * ((n : Int) - 2) := by
    push_cast [show 2 ≤ n by omega]
    rfl
  rw [supported, decide_eq_true_iff, Int.toNat_natCast, ← hT]
  omega

section
variable {n es : Int} (init nan : Word) (ru : Nat)

theorem construct_of_invalid (h : n < 5 ∨ es < 0) :
    construct n es init nan ru = .fault .invalidConstruction := by
  rw [construct, if_pos h, raise_eq]

theorem construct_of_unsupported (h : ¬(n < 5 ∨ es < 0)) (hs : ¬supported n.toNat es.toNat = true) :
    construct n es init nan ru = .refused .unsupportedFormat := by
  rw [construct, if_neg h, if_neg hs]

theorem construct_of_supported (h : ¬(n < 5 ∨ es < 0)) (hs : supported n.toNat es.toNat = true) :
    construct n es init nan ru = .next (State.constructed
      { n := n.toNat, es := es.toNat, nanCanon := nan, ruBudget := ru, initValue := init }) := by
  rw [construct, if_neg h, if_pos hs]

end

/-- With legal parameters a new instance holds the exact form's pattern of `INIT_VALUE`, and SETVAL of `INIT_VALUE`
stores the same on any instance with these parameters (R97, R160). -/
theorem constructed_holds_initValue {c : Config} (hc : c.wf = true) :
    (State.constructed c).bits = Exact.positEncode c c.initValue ∧
    ∀ s : State, s.cfg = c → ∃ r : Word, exec (.setval c.initValue) s =
      .next { s with bits := (State.constructed c).bits, res := some r } := by
  refine ⟨positEncode_eq_exact hc c.initValue, fun s hs => ?_⟩
  subst hs
  exact ⟨_, exec_setval s.cfg.initValue s⟩

/-- Settles O27: each clause is one outcome of construction, and with legal parameters the ordinary encoder has given
the new instance the pattern that SETVAL stores. -/
theorem constructionSequence : Obligations.ConstructionSequence := by
  intro n es init nan ru
  refine ⟨construct_of_invalid init nan ru, fun hn hes henv => ?_, fun hn hes hwidth hT hnan hru => ?_⟩
  · exact construct_of_unsupported init nan ru (by omega) (henv ∘ (supported_toNat_iff hn).mp)
  · have hs : supported n.toNat es.toNat = true := (supported_toNat_iff hn).mpr ⟨hwidth, hT⟩
    have hlegal : Config.wf ⟨n.toNat, es.toNat, nan, ru, init⟩ = true :=
      Config.wf_iff.mpr ⟨hs, hnan, decide_eq_true hru⟩
    exact ⟨_, construct_of_supported init nan ru (by omega) hs, rfl, constructed_holds_initValue hlegal⟩

end Sys2Proof.Machine
end

section
/-! SUPPORT. Command words again: encoding a decoded word, the spec's program words, and opcode-table words (R37, R40). -/

namespace Sys2Proof

/-- The decoder hands on the whole operand field, whichever command it names (R39). -/
theorem arg_decode (w : CmdWord) : (decode w).arg = argField w := by
  unfold decode
  split <;> rfl

theorem encode_decode (w : CmdWord) : encode (decode w) = w := by
  rw [encode, opcode_decode, arg_decode, opField_append_argField]

/-- Settles O2: the two fields of a word make up the word, and the decoder keeps both, as opcode and operand. -/
theorem commandWordRoundTrip : Obligations.CommandWordRoundTrip := ⟨fun i _ => decode_encode i, encode_decode⟩

/-- Settles O1: each of the eight words is that of its command. -/
theorem programWordsDecode : Obligations.ProgramWordsDecode :=
  ⟨decode_encode (.getbits 0#64), decode_encode (.setbits 0xFFFFFFFFFFFFFFFF#64), decode_encode (.getval 0#64),
    decode_encode (.setval 0x3F90000000000000#64), decode_encode (.isnar 0#64), decode_encode (.getwidth 0#64),
    decode_encode (.dec 0x2E#64), decode_encode (.enc 0x400921FB54442D11#64)⟩

/-- A command word passes through a 72-bit container unchanged (log 14). -/
theorem toNat_mod_container (w : CmdWord) : w.toNat % 2 ^ 72 = w.toNat :=
  Nat.mod_eq_of_lt (w.isLt.trans (by decide))

theorem decodeNat_toNat (w : CmdWord) : decodeNat w.toNat = .ok (decode w) := by
  rw [decodeNat, if_pos w.isLt, BitVec.ofNat_toNat, BitVec.setWidth_eq]

theorem decodeTableWord_encode (i : Instr) : decodeTableWord 72 (encode i).toNat = some i := by
  rw [decodeTableWord, toNat_mod_container, decodeNat_toNat, decode_encode]

theorem tableWord_toNat (w : CmdWord) : Machine.tableWord 72 w.toNat = w := by
  rw [Machine.tableWord, toNat_mod_container, BitVec.ofNat_toNat, BitVec.setWidth_eq]

/-- Settles O5: the container changes no command word, and the presented word is the step's. -/
theorem presentedCommandRunsNext : Obligations.PresentedCommandRunsNext := by
  intro i s
  refine ⟨decodeTableWord_encode i, ?_⟩
  rw [Machine.State.withFetchWord, tableWord_toNat, Machine.step_presentWord, decode_encode]

end Sys2Proof
end

section
/-! SUPPORT. One step, by the oldest event of the input port (R13, R19, R25, R26), and what it leaves unchanged. -/

namespace Sys2Proof.Machine

/-- With an event pending, the step performs it on the state from which it has been taken. -/
theorem step_of_pending {s : State} {e : HostEvent} {rest : List HostEvent} (h : s.pending = e :: rest) :
    step s = perform e { s with pending := rest } := by
  rw [step, performNext, fetch_cons h]

/-- Settles O4: performing a command word is decoding and executing it. -/
theorem stepPerformsOldestCommand : Obligations.StepPerformsOldestCommand := fun _ _ _ h => step_of_pending h

/-- Settles O6: there is no event to take. -/
theorem quiescentStepChangesNothing : Obligations.QuiescentStepChangesNothing := by
  intro s h
  rw [step, performNext, fetch_nil h]

/-- Settles O8: an overlapping launch has no other outcome. -/
theorem overlappingCommandsRefused : Obligations.OverlappingCommandsRefused := fun _ _ _ _ _ h => step_of_pending h

/-- Settles O7: the reset event reconstructs, and the encoder of the construction agrees with the exact form. -/
theorem resetEventRepeatsConstruction : Obligations.ResetEventRepeatsConstruction := by
  intro s rest hc h
  rw [step_of_pending h, ← positEncode_eq_exact hc]
  rfl

/-- Settles O18: every command drives a result, and the two that write `BITS` first are SETBITS and SETVAL. -/
theorem commandFrame : Obligations.CommandFrame := by
  intro i s t ht
  obtain ⟨r, hr⟩ | ⟨a, rfl, hr⟩ | ⟨a, rfl, hr⟩ := exec_cases i s <;>
    obtain rfl := Host.Outcome.next.inj (hr.symm.trans ht)
  · exact ⟨rfl, rfl, fun _ _ => rfl⟩
  · exact ⟨rfl, rfl, fun hset _ => absurd rfl (hset a)⟩
  · exact ⟨rfl, rfl, fun _ hset => absurd rfl (hset a)⟩

/-- Settles O25: a command keeps the parameters by its frame, a reset reconstructs with them. -/
theorem parametersNeverChange : Obligations.ParametersNeverChange := by
  intro s t ht
  obtain ⟨-, hs⟩ | ⟨w, rest, -, hs⟩ | ⟨rest, -, hs⟩ | ⟨v, w, more, rest, -, hs⟩ := step_cases s
  · obtain rfl := Host.Outcome.next.inj (hs.symm.trans ht)
    rfl
  · exact (commandFrame _ _ _ (hs.symm.trans ht)).1
  · obtain rfl := Host.Outcome.next.inj (hs.symm.trans ht)
    rfl
  · simp [hs] at ht

/-- Settles O20: what a command writes and drives depends on its operand, on the parameters, and on a `BITS` that it
leaves or does not read; a second performance finds all three as the first did. -/
theorem commandsAreIdempotent : Obligations.CommandsAreIdempotent := by
  intro i s t ht
  cases i <;> obtain rfl := Host.Outcome.next.inj ht <;> rfl

/-- A raw-bits operand is fixed by the bits below `n` (R22, R39). -/
theorem rawOperand_congr {c : Config} {a b : Word} (h : ∀ j, j < c.n → a.getLsbD j = b.getLsbD j) :
    rawOperand c a = rawOperand c b := by
  refine Nat.eq_of_testBit_eq fun j => ?_
  rw [rawOperand_testBit, rawOperand_testBit]
  by_cases hj : j < c.n
  · rw [h j hj]
  · rw [decide_eq_false hj, Bool.false_and, Bool.false_and]

/-- Settles O19: four commands do not look at their operand, SETBITS and DEC mask it. -/
theorem ignoredOperandBitsDoNotMatter : Obligations.IgnoredOperandBitsDoNotMatter := by
  refine fun s a b => ⟨rfl, rfl, rfl, rfl, fun h => ?_⟩
  rw [exec_setbits, exec_setbits, exec_dec, exec_dec, rawOperand_congr h]
  exact ⟨rfl, rfl⟩

end Sys2Proof.Machine
end

section
/-! SUPPORT. Runs of any length: of issued commands, in the order of issue, and of a single-issue host (R25, R140). -/

namespace Sys2Proof.Machine

theorem step_issued (s : State) (i : Instr) (later : List Instr) :
    step { s with pending := issued (i :: later) } = exec i { s with pending := issued later } :=
  (step_of_pending (e := .command (encode i)) (rest := issued later) rfl).trans
    (congrArg (exec · { s with pending := issued later }) (decode_encode i))

theorem run_succ_of_step {s t : State} (h : step s = .next t) (k : Nat) :
    core.run (k + 1) s = core.run k t := by
  have hcore : core.step s = .next t := h
  simp only [Host.Core.run, hcore]

/-- A command that does not write `BITS` only drives a result. -/
theorem exec_of_isReader {i : Instr} (hi : isReader i = true) (s : State) : ∃ r, exec i s = .next (s.respond r) := by
  obtain h | ⟨a, rfl, -⟩ | ⟨a, rfl, -⟩ := exec_cases i s
  · exact h
  · cases hi
  · cases hi

/-- Readers at the front of the port change nothing but the result and the port itself. -/
theorem run_readers {readers : List Instr} (hr : readers.all isReader = true) (s : State) (later : List Instr) (k : Nat) :
    ∃ o, core.run (readers.length + k) { s with pending := issued (readers ++ later) } =
      core.run k { s with res := o, pending := issued later } := by
  induction readers generalizing s with
  | nil => exact ⟨s.res, by rw [List.length_nil, Nat.zero_add]; rfl⟩
  | cons i readers ih =>
    rw [List.all_cons, Bool.and_eq_true] at hr
    obtain ⟨r, hexec⟩ := exec_of_isReader hr.1 { s with pending := issued (readers ++ later) }
    obtain ⟨o, ho⟩ := ih hr.2 (s.respond r)
    refine ⟨o, ?_⟩
    rw [List.length_cons, Nat.add_right_comm, List.cons_append, run_succ_of_step ((step_issued s i _).trans hexec)]
    exact ho

/-- After a command that writes `p` to `BITS`, and any readers, GETBITS drives `p` (R25). -/
theorem getbits_after_write {s : State} {i : Instr} {p : Nat} {readers : List Instr} (a : Word)
    (hr : readers.all isReader = true)
    (hexec : ∀ events, exec i { s with pending := events } =
      .next (({ s with pending := events }.writeBits p).respond (rawResult p))) :
    ∃ t : State, core.run (readers.length + 2) { s with pending := issued (i :: readers ++ [.getbits a]) } = .next t ∧
      t.pending = [] ∧ t.res = some (rawResult p) := by
  obtain ⟨o, hreaders⟩ := run_readers hr ((s.writeBits p).respond (rawResult p)) [.getbits a] 1
  have hwrite := run_succ_of_step ((step_issued s i (readers ++ [.getbits a])).trans (hexec _)) (readers.length + 1)
  exact ⟨{ s with bits := p, res := some (rawResult p), pending := [] },
    hwrite.trans (hreaders.trans (run_succ_of_step (step_issued _ _ []) 0)), rfl, rfl⟩

/-- Settles O21: a step performs the oldest command, and readers leave what SETBITS or SETVAL has written. -/
theorem readsSeeTheLatestWrite : Obligations.ReadsSeeTheLatestWrite := by
  refine ⟨step_issued, fun s readers v d a hc hr => ⟨?_, ?_⟩⟩
  · obtain ⟨t, hrun, hdone, hres⟩ :=
      getbits_after_write (s := s) (p := rawOperand s.cfg v) a hr fun _ => exec_setbits v _
    exact ⟨t, _, hrun, hdone, hres, rawResult_toNat (pattern_lt_word hc (Config.maskBits_lt s.cfg v.toNat))⟩
  · obtain ⟨t, hrun, hdone, hres⟩ :=
      getbits_after_write (s := s) (p := positEncode s.cfg d) a hr fun _ => exec_setval d _
    rw [positEncode_eq_exact hc] at hres
    exact ⟨t, _, hrun, hdone, hres, rawResult_exactPattern_toNat hc d⟩

theorem singleIssue_of_pending {s t : State} {e : HostEvent} (hs : s.SingleIssue) (h : s.pending = e :: t.pending) :
    t.SingleIssue := fun x hx => hs x (h ▸ List.mem_cons_of_mem e hx)

/-- A single-issue host's step answers a next state, and takes at most one event from the port. -/
theorem step_of_singleIssue {s : State} (hs : s.SingleIssue) : ∃ t, step s = .next t ∧ t.SingleIssue := by
  obtain ⟨-, hstep⟩ | ⟨w, rest, hp, hstep⟩ | ⟨rest, hp, hstep⟩ | ⟨v, w, more, rest, hp, -⟩ := step_cases s
  · exact ⟨s, hstep, hs⟩
  · obtain ⟨t, -, hexec, -⟩ := noCommandFails (decode w) { s with pending := rest }
    obtain ⟨-, hpending, -⟩ := commandFrame _ _ _ hexec
    exact ⟨t, hstep.trans hexec, singleIssue_of_pending hs (hp.trans (congrArg _ hpending.symm))⟩
  · exact ⟨_, hstep, singleIssue_of_pending hs hp⟩
  · have hmem : HostEvent.overlap v w more ∈ s.pending := hp ▸ List.mem_cons_self
    exact (hs _ hmem).elim

/-- Settles O22, by induction on the number of steps. -/
theorem singleIssueRunsNeverStop : Obligations.SingleIssueRunsNeverStop := by
  intro s hs k
  induction k generalizing s with
  | zero => exact ⟨s, rfl⟩
  | succ k ih =>
    obtain ⟨t, hstep, ht⟩ := step_of_singleIssue hs
    rw [SafeRun, run_succ_of_step hstep]
    exact ih t ht

end Sys2Proof.Machine
end

section
/-! SUPPORT. The parameters and the states of construction (R4, R19). -/

namespace Sys2Proof.Machine

/-- Between two neighbouring powers of two that bracket the bound, the bound is one on the exponent. -/
theorem two_pow_mul_le_iff {m es width : Nat} (hlo : 2 ^ m * width ≤ 1022) (hhi : 1022 < 2 ^ (m + 1) * width) :
    2 ^ es * width ≤ 1022 ↔ es ≤ m := by
  constructor
  · intro h
    by_contra hes
    have hpow : 2 ^ (m + 1) ≤ 2 ^ es := Nat.pow_le_pow_right (by decide) (by omega)
    exact absurd (hhi.trans_le (Nat.mul_le_mul_right width hpow)) h.not_gt
  · exact fun hes => (Nat.mul_le_mul_right width (Nat.pow_le_pow_right (by decide) hes)).trans hlo

/-- Settles O29: one band of widths at a time, in which the largest exponent size is the same. -/
theorem envelopeByWidth : Obligations.EnvelopeByWidth := by
  intro n es
  rw [supported, decide_eq_true_iff]
  obtain hn | rfl | hn | hn | hn | hn :
      n < 5 ∨ n = 5 ∨ (6 ≤ n ∧ n ≤ 9) ∨ (10 ≤ n ∧ n ≤ 17) ∨ (18 ≤ n ∧ n ≤ 32) ∨ 32 < n := by omega
  · omega
  · rw [two_pow_mul_le_iff (m := 8) (by omega) (by omega)]
    omega
  · rw [two_pow_mul_le_iff (m := 7) (by omega) (by omega)]
    omega
  · rw [two_pow_mul_le_iff (m := 6) (by omega) (by omega)]
    omega
  · rw [two_pow_mul_le_iff (m := 5) (by omega) (by omega)]
    omega
  · omega

/-- Settles O24: the reset state is a construction with legal parameters. -/
theorem resetStateHasInvariant : Obligations.ResetStateHasInvariant := constructed_inv (by decide)

/-- Settles O28: the word of zero encodes to the pattern zero, and P8 can be constructed. -/
theorem defaultConstructionIsZero : Obligations.DefaultConstructionIsZero := by
  refine ⟨fun c h => ?_, 8, 0, construct_of_supported _ _ _ (by decide) (by decide)⟩
  rw [State.constructed_bits, h]
  exact positEncode_zero ((val_eq_zero_iff 0#64).mpr ⟨rfl, rfl⟩)

/-- Settles O45: the use is guarded by the range test and nothing else. -/
theorem standaloneRoundingUnitRange : Obligations.StandaloneRoundingUnitRange := fun c img k =>
  ⟨fun h => if_pos (decide_eq_true h), fun h => if_neg (by rwa [regimeInRange, decide_eq_true_iff])⟩

/-- Settles O57: behind the guard the result is built on the left operand's parameters. -/
theorem binaryResultTakesLeftParameters : Obligations.BinaryResultTakesLeftParameters := fun _ _ _ hsame =>
  ⟨_, formatGuard_same hsame _, rfl⟩

end Sys2Proof.Machine
end

section
/-! SUPPORT. The encoder and the rounding unit as a whole: what is rounded, the two images, and the two forms of rounding
(R86 to R94, R101, R102, R107). -/

namespace Sys2Proof.Machine

/-- A scale of regime `k` and exponent `e` as a power of two (R5, R66). -/
theorem two_zpow_scale (c : Config) (k : Int) (e : Nat) :
    (2 : ℚ) ^ (2 ^ c.es * k + e) = c.useed ^ k * 2 ^ e := by
  rw [zpow_add₀ two_ne_zero, zpow_mul, zpow_natCast, Config.useed]
  norm_cast

/-- Settles O38: the clamp tests leave a normal word with `-T <= x < T`, whose regime index and exponent field are quotient
and remainder of `x`. -/
theorem fieldsOfRoundedWords : Obligations.FieldsOfRoundedWords := by
  intro c d v hc hv _ hmax hmin
  have htop : ¬atLeastMaxpos c d = true := mt (atLeastMaxpos_iff hv).mp hmax.not_ge
  have hbottom : ¬belowMinpos c d = true := mt (belowMinpos_iff hc hv).mp hmin.not_gt
  have hk := regimeInRange_of_between hc htop hbottom
  have hsplit : unbiased d = regimeIndex c (unbiased d) * 2 ^ c.es + exponentPart c (unbiased d) := by
    rw [exponentPart_eq, regimeIndex_eq, Int.mul_comm, Int.mul_ediv_add_emod]
  have hfinite : Binary64.expo d ≠ 2047 := fun h => by simp [(val_eq_none_iff d).mpr h] at hv
  have hlt := Binary64.expo_lt d
  rw [atLeastMaxpos, decide_eq_true_iff] at htop
  rw [belowMinpos, decide_eq_true_iff] at hbottom
  rw [regimeInRange, decide_eq_true_iff] at hk
  refine ⟨by omega, by omega, by omega, by omega, hsplit, exponentPart_lt c _, hk.1, hk.2, ?_⟩
  obtain rfl := Option.some.inj ((val_of_normal (by omega) hfinite).symm.trans hv)
  rw [Binary64.abs_normal, Binary64.normal_false, ← two_zpow_scale, Int.mul_comm, ← hsplit, mul_comm]

/-- Settles O39: bit 63 and the bits below it are the image's, one by one, and bit 0 gathers the rest. -/
theorem datapathImageIsExactImage : Obligations.DatapathImageIsExactImage := by
  intro c k e f hc _ he hf
  refine ⟨image64_getLsbD hc k he hf (j := 0) (by omega), fun j hj => image64_getLsbD hc k he hf hj, ?_⟩
  rw [Bool.eq_iff_iff, image64_getLsbD_zero_iff hc k he hf, Exact.any_drop_iff]
  rfl

/-- Settles O40: the addition carries into the kept bits exactly where guard and sticky round up. -/
theorem addAndTruncateIsTiesToEven : Obligations.AddAndTruncateIsTiesToEven := fun _ _ hc h63 =>
  roundNearestEven_eq_roundGuardSticky hc h63

/-- Settles O41: both forms clamp alike, and round images that round alike. -/
theorem datapathEqualsExactForm : Obligations.DatapathEqualsExactForm := fun _ d hc => positEncode_eq_exact hc d

/-- Settles O43: an image of the encoder has kept bits and a regime index below every legal budget; and the exact form,
which the encoder equals under each of them, knows no budget. -/
theorem specialClausesNeverActInEncoder : Obligations.SpecialClausesNeverActInEncoder := by
  refine ⟨fun c k e f hc hk he hf => ⟨image64_ne_halfUlp hc he hf hk, ?_⟩, fun c d budget hc hbudget => ?_⟩
  · rw [roundImage_image64 hc hk he hf, roundNearestEven_image64 hc k he hf]
  · obtain ⟨hs, hnan, -⟩ := Config.wf_iff.mp hc
    have hlegal : Config.wf { c with ruBudget := budget } = true :=
      Config.wf_iff.mpr ⟨hs, hnan, decide_eq_true hbudget⟩
    rw [positEncode_eq_exact hlegal, positEncode_eq_exact hc]
    rfl

end Sys2Proof.Machine
end

section
/-! SUPPORT. The rounding unit on its own (R105): the images whose regime takes up all kept bits. -/

namespace Sys2Proof.Machine

namespace Exact

/-- The regime's repeated bits, the first of its end among them. -/
theorem imageBit_regime (c : Config) (k : Int) (e f : Nat) {j : Nat} (h1 : 1 ≤ j) (hj : j ≤ shiftCount k + 1) :
    imageBit c k e f j = decide (0 ≤ k) := by
  obtain ⟨i, rfl⟩ := Nat.exists_eq_add_of_le' h1
  rw [imageBit_succ]
  split
  next => rfl
  next hlast => rw [show i - shiftCount k = 0 by omega, scratchBits_zero]

theorem imageBit_terminator (c : Config) (k : Int) (e f : Nat) :
    imageBit c k e f (shiftCount k + 2) = !decide (0 ≤ k) := by
  rw [imageBit_succ, if_neg (by omega), Nat.add_sub_cancel_left, scratchBits_one]

/-- The guard bit of a regime that takes up more than the kept bits is one more of its repeated bits. -/
theorem guard_of_regime {c : Config} (hc : c.wf = true) {k : Int} (e f : Nat) (hlong : c.n ≤ shiftCount k + 1) :
    guard c k e f = decide (0 ≤ k) := imageBit_regime c k e f (one_le_width hc) hlong

theorem guard_of_terminator {c : Config} {k : Int} (e f : Nat) (hend : c.n = shiftCount k + 2) :
    guard c k e f = !decide (0 ≤ k) := by
  rw [guard, hend, imageBit_terminator]

/-- A regime of ones that takes up the kept bits makes them the largest pattern, one of zeros makes them zero. -/
theorem kept_of_long_regime {c : Config} {k : Int} (e f : Nat) (hlong : c.n ≤ shiftCount k + 2) :
    kept c k e f = if 0 ≤ k then c.maxposBits else 0 := by
  have hbit : ∀ i, (kept c k e f).testBit i = (decide (i < c.n - 1) && decide (0 ≤ k)) := by
    intro i
    rw [kept_testBit]
    by_cases hi : i < c.n - 1
    · rw [imageBit_regime c k e f (by omega) (by omega), decide_eq_true hi, decide_eq_true (by omega)]
    · rw [show c.n - 1 - i = 0 by omega, imageBit_zero, decide_eq_false hi, Bool.and_false, Bool.false_and]
  refine Nat.eq_of_testBit_eq fun i => ?_
  rw [hbit]
  split
  next hk => rw [Config.maxposBits, Nat.testBit_two_pow_sub_one, decide_eq_true hk, Bool.and_true]
  next hk => rw [decide_eq_false hk, Bool.and_false, Nat.zero_testBit]

end Exact

/-- Without kept bits, a guard bit alone is half an ULP (R103). -/
theorem eq_halfUlp {c : Config} (hc : c.wf = true) {img : Word} (hkept : keptBits c img = 0)
    (hguard : guardBit c img = true) (hsticky : stickyBit c img = false) : img = halfUlp c := by
  obtain ⟨-, hn, -⟩ := Config.wf_bounds hc
  have hlow : img.toNat % 2 ^ (63 - c.n) = 0 := by simpa [stickyBit] using hsticky
  have hsplit := Nat.div_add_mod img.toNat (2 ^ (64 - c.n))
  rw [keptBits, BitVec.toNat_ushiftRight, Nat.shiftRight_eq_div_pow] at hkept
  rw [hkept, Nat.mul_zero, Nat.zero_add, show 64 - c.n = 63 - c.n + 1 by omega, mod_two_pow_succ, hlow,
    BitVec.testBit_toNat] at hsplit
  rw [guardBit] at hguard
  apply BitVec.eq_of_toNat_eq
  rw [halfUlp_toNat hc, ← hsplit, hguard, Bool.toNat_true, Nat.zero_add, Nat.mul_one]

/-- What lies between half an ULP and a whole one rounds to 1: a tie by the degenerate clause, the rest upwards (R102,
R103). -/
theorem roundDegenerate_of_guard {c : Config} (hc : c.wf = true) {img : Word} (h63 : img.getLsbD 63 = false)
    (hkept : keptBits c img = 0) (hguard : guardBit c img = true) : roundDegenerate c img = 1 := by
  rw [roundDegenerate]
  split
  next => rfl
  next hne =>
    have hsticky : stickyBit c img = true := by
      by_contra h
      exact hne (eq_halfUlp hc hkept hguard (Bool.eq_false_of_not_eq_true h))
    rw [roundNearestEven_eq_roundGuardSticky hc h63, roundGuardSticky, hkept, hguard, hsticky]
    rfl

theorem guardBit_halfUlp {c : Config} (hc : c.wf = true) : guardBit c (halfUlp c) = true := by
  rw [guardBit, ← BitVec.testBit_toNat, halfUlp_toNat hc, Nat.testBit_two_pow_self]

theorem keptBits_halfUlp {c : Config} (hc : c.wf = true) : keptBits c (halfUlp c) = 0 := by
  obtain ⟨hn, hn32, -⟩ := Config.wf_bounds hc
  rw [keptBits, BitVec.toNat_ushiftRight, halfUlp_toNat hc, Nat.shiftRight_eq_div_pow]
  exact Nat.div_eq_of_lt (Nat.pow_lt_pow_right (by decide) (by omega))

/-- The correction moves the pattern by one towards `k = 0` (R104). -/
theorem roundImage_of_corrects {c : Config} {k : Int} (hbudget : c.ruBudget ≤ k.natAbs) (hk : k.natAbs < c.kmax)
    (img : Word) : roundImage c img k = roundDegenerate c img - k.sign := by
  have hcorrects : corrects c k = true := decide_eq_true ⟨hbudget, hk⟩
  simp only [roundImage, hcorrects, if_true]

theorem roundImage_of_lt_budget {c : Config} {k : Int} (hbudget : k.natAbs < c.ruBudget) (img : Word) :
    roundImage c img k = roundDegenerate c img := by
  have hcorrects : ¬corrects c k = true := by
    rw [corrects, decide_eq_true_iff]
    omega
  simp only [roundImage, if_neg hcorrects]

section
variable {c : Config} (hc : c.wf = true) {k : Int} {e f : Nat} (he : e < 2 ^ c.es) (hf : f < 2 ^ 52)
include hc he hf

/-- Half an ULP has no kept bits and its guard bit set; every other image of a regime is rounded as the exact one. -/
theorem roundDegenerate_image64 (h : Exact.kept c k e f ≠ 0 ∨ Exact.guard c k e f = false) :
    roundDegenerate c (image64 c k e f) = Exact.rounded c k e f := by
  have hne : image64 c k e f ≠ halfUlp c := by
    intro himg
    rw [← keptBits_image64 hc k he hf, ← guardBit_image64 hc k he hf, himg, keptBits_halfUlp hc,
      guardBit_halfUlp hc] at h
    simp at h
  rw [roundDegenerate, if_neg hne, roundNearestEven_image64 hc k he hf]

/-- After ones only the largest pattern is kept, and rounded up exactly if the guard bit is set: the pattern is odd. -/
theorem roundDegenerate_of_ones (hk : 0 ≤ k) (hlong : c.n ≤ shiftCount k + 2) :
    roundDegenerate c (image64 c k e f) = c.maxposBits + (Exact.guard c k e f).toNat := by
  obtain ⟨hn, -, -⟩ := Config.wf_bounds hc
  have hkept := Exact.kept_of_long_regime (c := c) e f hlong
  rw [if_pos hk] at hkept
  have hone := one_le_maxposBits hc
  have hodd : c.maxposBits.testBit 0 = true := by
    rw [Config.maxposBits, Nat.testBit_two_pow_sub_one, decide_eq_true (by omega)]
  rw [roundDegenerate_image64 hc he hf (.inl (by omega)), Exact.rounded, hkept, hodd, Bool.or_true, Bool.and_true]

/-- After zeros only nothing is kept, and the guard bit alone decides between 0 and 1. -/
theorem roundDegenerate_of_zeros (hk : k < 0) (hlong : c.n ≤ shiftCount k + 2) :
    roundDegenerate c (image64 c k e f) = (Exact.guard c k e f).toNat := by
  have hkept := Exact.kept_of_long_regime (c := c) e f hlong
  rw [if_neg (by omega)] at hkept
  cases hguard : Exact.guard c k e f with
  | false =>
    rw [roundDegenerate_image64 hc he hf (.inr hguard), Exact.rounded, hkept, hguard]
    rfl
  | true =>
    exact roundDegenerate_of_guard hc (image64_getLsbD hc k he hf (j := 0) (by omega))
      ((keptBits_image64 hc k he hf).trans hkept) ((guardBit_image64 hc k he hf).trans hguard)

end

/-- Settles O44: outside the encoder's range the regime takes up all kept bits. Ones round to the largest pattern, or, with
the guard bit set, one step beyond it; zeros round to 1, or, with the guard bit clear, to 0; and where `|k|` reaches
`RU_BUDGET = n` the correction takes that step back. -/
theorem roundingUnitTable : Obligations.RoundingUnitTable := by
  intro c k e f hc hbudget hkmax he hf
  obtain ⟨hn, -, -⟩ := Config.wf_bounds hc
  have hmax := maxposBits_add_one c
  have hpow : ((2 ^ (c.n - 1) : Nat) : Int) = 2 ^ (c.n - 1) := by push_cast; rfl
  have hcount : 0 ≤ k ∧ (shiftCount k : Int) = k ∨ k < 0 ∧ (shiftCount k : Int) = -k - 1 := by
    rw [shiftCount]
    split <;> omega
  refine ⟨fun hlo hhi => ?_, fun hk => ?_, fun hk => ?_, fun hk => ?_, fun hk => ?_⟩
  · have hrange : regimeInRange c k = true := decide_eq_true ⟨hlo, hhi⟩
    obtain ⟨h1, h2⟩ := Exact.rounded_bounds hrange e f
    rw [roundImage_image64 hc hrange he hf]
    exact ⟨rfl, by omega, by omega⟩
  · have hguard := Exact.guard_of_terminator e f (c := c) (k := k) (by omega)
    rw [roundImage_of_lt_budget (by omega), roundDegenerate_of_ones hc he hf (by omega) (by omega), hguard,
      decide_eq_true (by omega), Bool.not_true, Bool.toNat_false]
    omega
  · have hguard := Exact.guard_of_regime hc e f (k := k) (by omega)
    rw [roundImage_of_lt_budget (by omega), roundDegenerate_of_ones hc he hf (by omega) (by omega), hguard,
      decide_eq_true (by omega), Bool.toNat_true, hmax, hpow]
  · have hguard := Exact.guard_of_regime hc e f (k := k) (by omega)
    rw [roundImage_of_corrects (by omega) hkmax, roundDegenerate_of_ones hc he hf (by omega) (by omega), hguard,
      decide_eq_true (by omega), Bool.toNat_true, hmax, hpow, Int.sign_eq_one_of_pos (by omega)]
  · obtain hk | hk := hk.eq_or_lt
    · have hguard := Exact.guard_of_terminator e f (c := c) (k := k) (by omega)
      rw [roundImage_of_lt_budget (by omega), roundDegenerate_of_zeros hc he hf (by omega) (by omega), hguard,
        decide_eq_false (by omega)]
      rfl
    · have hguard := Exact.guard_of_regime hc e f (k := k) (by omega)
      rw [roundImage_of_corrects (by omega) hkmax, roundDegenerate_of_zeros hc he hf (by omega) (by omega), hguard,
        decide_eq_false (by omega), Int.sign_eq_neg_one_of_neg (by omega)]
      rfl

end Sys2Proof.Machine
end

section
/-! SUPPORT. The decoded word as a value (R72), the round trip by the commands (R130), and NaR in band (R62, R83, R143). -/

namespace Sys2Proof.Machine

theorem val_of_isNaN {d : Word} (hd : Binary64.isNaN d = true) : Binary64.val d = none := by
  rw [Binary64.isNaN, Bool.and_eq_true, beq_iff_eq] at hd
  exact (val_eq_none_iff d).mpr hd.1

/-- Settles O36: zero and NaR by their own words, every other pattern by the normal word that the field table assembles. -/
theorem decodedWordIsExact : Obligations.DecodedWordIsExact := by
  intro c p hc hp
  refine ⟨positDecode_rendersAs hc hp, ?_, fun hfin => ?_⟩
  · by_cases h0 : p = 0
    · subst h0
      rw [positDecodeF64_zero, positDecode_zero]
      exact (val_eq_zero_iff 0#64).mpr ⟨rfl, rfl⟩
    by_cases hnar : p = c.narBits
    · subst hnar
      rw [positDecodeF64_nar, positDecode_nar]
      exact val_of_isNaN (Config.wf_nan hc)
    obtain ⟨x, f, hf, hx1, hx2, hword, hvalue⟩ := positDecodeF64_normal hc (isFinitePattern_iff.mpr ⟨hp, h0, hnar⟩)
    rw [hword, hvalue]
    exact Binary64.val_assemble hx1 hx2 hf
  · obtain ⟨x, f, -, hx1, hx2, hword, -⟩ := positDecodeF64_normal hc hfin
    have hexpo := Binary64.expo_assemble (s := (positFields c p).s) (x := x) (f := f) (by omega) (by omega)
    rw [hword]
    omega

/-- The real value of the word the decoder drives is that of the pattern (R72). -/
theorem val_positDecodeF64 {c : Config} (hc : c.wf = true) {p : Nat} (hp : p < 2 ^ c.n) :
    Binary64.val (positDecodeF64 c p) = (positDecode c p).real := (decodedWordIsExact c p hc hp).2.1

/-- Settles O47: GETVAL drives the decoded word of `BITS`, which SETVAL encodes back. -/
theorem getvalThenSetvalKeepsBits : Obligations.GetvalThenSetvalKeepsBits := fun s a ⟨hc, hbits⟩ =>
  ⟨_, _, _, exec_getval a s, State.respond_res _ _, exec_setval _ _, encodeDecodeRoundTrip s.cfg s.bits hc hbits⟩

/-- A word with a real value encodes to a pattern other than NaR: zero, or one on either side of it (R82, R95). -/
theorem positEncode_eq_narBits_iff {c : Config} (hc : c.wf = true) (d : Word) :
    positEncode c d = c.narBits ↔ Binary64.val d = none := by
  refine ⟨fun henc => ?_, positEncode_of_val_eq_none⟩
  cases hv : Binary64.val d with
  | none => rfl
  | some v =>
    rw [Config.narBits] at henc
    rcases lt_trichotomy v 0 with hneg | rfl | hpos
    · obtain ⟨-, -, -, hrange⟩ := encodeSignSymmetry c d v hc hv hneg.ne
      obtain ⟨hlo, -⟩ := hrange hneg
      omega
    · rw [positEncode_zero hv] at henc
      exact absurd henc.symm (narBits_ne_zero c)
    · obtain ⟨-, -, hrange, -⟩ := encodeSignSymmetry c d v hc hv hpos.ne'
      obtain ⟨-, hhi⟩ := hrange hpos
      have := Nat.two_pow_pos (c.n - 1)
      omega

/-- Settles O48: ISNAR compares with the one pattern to which exactly the words without a real value encode. -/
theorem narIsInBand : Obligations.NarIsInBand := by
  intro s d a hc
  have hnar := positEncode_eq_narBits_iff hc d
  refine ⟨hnar, ?_, _, _, exec_setval d s, exec_isnar a _, ?_⟩
  · exact (positDecodeF64_nar s.cfg).symm ▸ Config.wf_nan hc
  · simp only [State.respond_res, State.respond_cfg, State.respond_bits, State.writeBits_cfg, State.writeBits_bits,
      integerResult_narQuery, hnar]

end Sys2Proof.Machine
end

section
/-! SUPPORT. Strict monotonicity of decoding (R70): the place of a positive pattern grows with it, and its value with the
place. Before that the piecewise form (R67). -/

namespace Sys2Proof.Machine

/-- Settles O32: with the sign clear the closed form's power of two is that of `X`, which splits into regime and
exponent. -/
theorem piecewiseFormOfPositives : Obligations.PiecewiseFormOfPositives := by
  intro c p _ hp hs
  rw [real_of_isFinitePattern hp, closedForm_of_s_eq_false hs, scaleX, two_zpow_scale, mul_comm]

/-- Within a binade by the fraction, across binades by the powers of two. -/
theorem piecewiseExp_strictMono : StrictMono piecewiseExp := by
  intro x y hxy
  have hpow : (0 : ℚ) < 2 ^ ⌊x⌋ := by positivity
  rw [piecewiseExp, piecewiseExp]
  rcases (Int.floor_le_floor hxy.le).eq_or_lt with hfloor | hfloor
  · have hfract : Int.fract x < Int.fract y := by
      rw [Int.fract, Int.fract, hfloor]
      exact sub_lt_sub_right hxy _
    rw [← hfloor]
    exact mul_lt_mul_of_pos_right (by linarith) hpow
  · calc (1 + Int.fract x) * 2 ^ ⌊x⌋ < 2 * 2 ^ ⌊x⌋ :=
          mul_lt_mul_of_pos_right (by linarith [Int.fract_lt_one x]) hpow
      _ = 2 ^ (⌊x⌋ + 1) := by rw [zpow_add_one₀ two_ne_zero, mul_comm]
      _ ≤ 2 ^ ⌊y⌋ := zpow_le_zpow_right₀ one_le_two hfloor
      _ ≤ (1 + Int.fract y) * 2 ^ ⌊y⌋ :=
          le_mul_of_one_le_left (by positivity) (by linarith [Int.fract_nonneg y])

theorem piecewiseExp_pos (y : ℚ) : 0 < piecewiseExp y := by
  have := Int.fract_nonneg y
  rw [piecewiseExp]
  positivity

theorem piecewiseExp_intCast (x : Int) : piecewiseExp x = 2 ^ x := by
  simp [piecewiseExp]

/-- Exponential and logarithm are inverse to each other. -/
theorem piecewiseExp_piecewiseLog {u : Nat} (hu : u ≠ 0) : piecewiseExp (piecewiseLog u) = u := by
  have hlo : (2 : ℚ) ^ Nat.log 2 u ≤ u := by exact_mod_cast Nat.pow_log_le_self 2 hu
  have hhi : (u : ℚ) < 2 ^ (Nat.log 2 u + 1) := by exact_mod_cast Nat.lt_pow_succ_log_self one_lt_two u
  have hpow : (0 : ℚ) < 2 ^ Nat.log 2 u := by positivity
  have h0 : 0 ≤ (u : ℚ) / 2 ^ Nat.log 2 u - 1 := sub_nonneg.mpr ((one_le_div hpow).mpr hlo)
  have h1 : (u : ℚ) / 2 ^ Nat.log 2 u - 1 ≤ 1 := by
    rw [sub_le_iff_le_add, div_le_iff₀ hpow]
    rw [pow_succ] at hhi
    linarith
  have hexp := piecewiseExp_int_add (Nat.log 2 u) h0 h1
  rw [Int.cast_natCast, add_sub_cancel, zpow_natCast, div_mul_cancel₀ _ hpow.ne'] at hexp
  exact hexp

theorem piecewiseLog_lt_iff {u v : Nat} (hu : u ≠ 0) (hv : v ≠ 0) : piecewiseLog u < piecewiseLog v ↔ u < v := by
  rw [← piecewiseExp_strictMono.lt_iff_lt, piecewiseExp_piecewiseLog hu, piecewiseExp_piecewiseLog hv, Nat.cast_lt]

/-- The distance from the nearer end grows from the lower end to the middle and shrinks from there on. -/
theorem regimePlace_lt {w u v : Nat} (hu : u ≠ 0) (huv : u < v) (hv : v < 2 ^ (w + 1)) :
    regimePlace w u < regimePlace w v := by
  have hdouble : 2 ^ (w + 1) = 2 * 2 ^ w := pow_succ' 2 w
  have hw : 2 ^ w ≠ 0 := by positivity
  rw [regimePlace, regimePlace]
  by_cases hlow : v < 2 ^ w
  · rw [if_pos hlow, if_pos (huv.trans hlow), sub_lt_sub_iff_right]
    exact (piecewiseLog_lt_iff hu (by omega)).mpr huv
  rw [if_neg hlow]
  by_cases hlow' : u < 2 ^ w
  · have h1 := (piecewiseLog_lt_iff hu hw).mpr hlow'
    have h2 : ¬piecewiseLog (2 ^ w) < piecewiseLog (2 ^ (w + 1) - v) := by
      rw [piecewiseLog_lt_iff hw (by omega)]
      omega
    rw [piecewiseLog_two_pow] at h1 h2
    rw [if_pos hlow']
    linarith
  · rw [if_neg hlow', sub_lt_sub_iff_left]
    exact (piecewiseLog_lt_iff (by omega) (by omega)).mpr (by omega)

/-- The value of a pattern with the sign bit clear, from its place on the line. -/
def magnitudeValue (c : Config) (p : Nat) : ℚ :=
  if p = 0 then 0 else piecewiseExp (2 ^ c.es * regimePlace (c.n - 2) p)

theorem magnitudeValue_lt {c : Config} (hc : c.wf = true) {p q : Nat} (hpq : p < q) (hq : q < 2 ^ (c.n - 1)) :
    magnitudeValue c p < magnitudeValue c q := by
  obtain ⟨hn, -, -⟩ := Config.wf_bounds hc
  rw [magnitudeValue, magnitudeValue, if_neg (show q ≠ 0 by omega)]
  split
  next => exact piecewiseExp_pos _
  next h0 =>
    rw [show c.n - 1 = c.n - 2 + 1 by omega] at hq
    exact piecewiseExp_strictMono (mul_lt_mul_of_pos_left (regimePlace_lt h0 hpq hq) (by positivity))

theorem magnitudeValue_nonneg (c : Config) (p : Nat) : 0 ≤ magnitudeValue c p := by
  rw [magnitudeValue]
  split
  next => exact le_refl 0
  next => exact (piecewiseExp_pos _).le

/-- A pattern with the sign bit clear has that value. -/
theorem real_of_nonneg {c : Config} (hc : c.wf = true) {p : Nat} (hpos : p < 2 ^ (c.n - 1)) :
    (positDecode c p).real = some (magnitudeValue c p) := by
  have hhalf := Config.two_pow_n (one_le_width hc)
  rw [magnitudeValue]
  split
  next h0 =>
    rw [h0, positDecode_zero]
    rfl
  next h0 =>
    have hp : isFinitePattern c p = true := isFinitePattern_iff.mpr ⟨by omega, h0, hpos.ne⟩
    have hs : (positFields c p).s = false := Nat.testBit_lt_two_pow hpos
    have hsign : Binary64.signFactor false = 1 := rfl
    rw [real_of_isFinitePattern hp, closedForm_eq_piecewiseExp c (bitSlice_lt _ _ _), hs, hsign, one_mul, one_mul,
      place_positFields hc hp, Nat.mod_eq_of_lt hpos]

/-- A pattern with the sign bit set has the opposite value of its two's complement (R68). -/
theorem real_of_neg {c : Config} (hc : c.wf = true) {p : Nat} (hneg : 2 ^ (c.n - 1) < p) (hp : p < 2 ^ c.n) :
    (positDecode c p).real = some (-magnitudeValue c (2 ^ c.n - p)) := by
  have hhalf := Config.two_pow_n (one_le_width hc)
  have h0 : 0 < p := Nat.zero_lt_of_lt hneg
  have hq := isFinitePattern_negBits hc (isFinitePattern_iff.mpr ⟨hp, h0.ne', hneg.ne'⟩)
  have hopposite := decodeSignSymmetry c _ hc hq
  rwa [negBits_negBits h0 hp, Config.negBits_of_pos h0 hp, real_of_nonneg hc (p := 2 ^ c.n - p) (by omega),
    Option.map_some] at hopposite

/-- The value of a pattern other than NaR, by the integer it reads as. -/
def signedValue (c : Config) (i : Int) : ℚ :=
  if 0 ≤ i then magnitudeValue c i.natAbs else -magnitudeValue c i.natAbs

theorem signedValue_strictMonoOn {c : Config} (hc : c.wf = true) :
    StrictMonoOn (signedValue c) {i | i.natAbs < 2 ^ (c.n - 1)} := by
  intro i hi j hj hij
  rw [signedValue, signedValue]
  rcases lt_or_ge i 0 with hneg | hnonneg
  · rw [if_neg (by omega)]
    rcases lt_or_ge j 0 with hneg' | hnonneg'
    · rw [if_neg (by omega), neg_lt_neg_iff]
      exact magnitudeValue_lt hc (by omega) hi
    · have hlt := magnitudeValue_lt hc (p := 0) (q := i.natAbs) (by omega) hi
      have hge := magnitudeValue_nonneg c j.natAbs
      have hzero := magnitudeValue_nonneg c 0
      rw [if_pos hnonneg']
      linarith
  · rw [if_pos hnonneg, if_pos (by omega)]
    exact magnitudeValue_lt hc (by omega) hj

/-- Every pattern but NaR reads as an integer between `-2^(n-1)` and `2^(n-1)`, and decodes to that integer's value. -/
theorem real_of_ne_nar {c : Config} (hc : c.wf = true) {p : Nat} (hp : p < 2 ^ c.n) (hnar : p ≠ 2 ^ (c.n - 1)) :
    (c.signedBits p).natAbs < 2 ^ (c.n - 1) ∧ (positDecode c p).real = some (signedValue c (c.signedBits p)) := by
  have hn := one_le_width hc
  have hhalf := Config.two_pow_n hn
  have hpow : ((2 ^ c.n : Nat) : Int) = 2 ^ c.n := by push_cast; rfl
  rw [Config.signedBits, testBit_sign hn hp, ← hpow, signedValue]
  rcases lt_or_gt_of_ne hnar with hpos | hneg
  · rw [decide_eq_false (by omega), if_neg Bool.false_ne_true, Int.sub_zero, Int.natAbs_natCast, if_pos (by omega)]
    exact ⟨hpos, real_of_nonneg hc hpos⟩
  · have habs : ((p : Int) - (2 ^ c.n : Nat)).natAbs = 2 ^ c.n - p := by omega
    rw [decide_eq_true hneg.le, if_pos rfl, habs, if_neg (by omega)]
    exact ⟨by omega, real_of_neg hc hneg hp⟩

/-- Settles O35: the value grows with the integer that the pattern reads as. -/
theorem decodeIsStrictlyIncreasing : Obligations.DecodeIsStrictlyIncreasing := by
  intro c p q hc hp hq hpnar hqnar hlt
  obtain ⟨hi, hu⟩ := real_of_ne_nar hc hp hpnar
  obtain ⟨hj, hv⟩ := real_of_ne_nar hc hq hqnar
  exact ⟨_, _, hu, hv, signedValue_strictMonoOn hc hi hj hlt⟩

end Sys2Proof.Machine
end

section
/-! SUPPORT. The extreme patterns and the bounds of every finite value (R69): the ends and the middle of the line on which
the positive patterns stand. -/

namespace Sys2Proof.Machine

theorem magnitudeValue_of_place {c : Config} {p : Nat} {r : Int} (h0 : p ≠ 0) (hplace : regimePlace (c.n - 2) p = r) :
    magnitudeValue c p = 2 ^ (2 ^ c.es * r) := by
  rw [magnitudeValue, if_neg h0, hplace, ← piecewiseExp_intCast]
  push_cast
  rfl

theorem regimePlace_one {w : Nat} (hw : w ≠ 0) : regimePlace w 1 = ((-w : Int) : ℚ) := by
  have hlog : piecewiseLog 1 = 0 := by simpa using piecewiseLog_two_pow 0
  rw [regimePlace, if_pos (Nat.one_lt_two_pow hw), hlog]
  push_cast
  exact zero_sub _

theorem regimePlace_last {w : Nat} (hw : w ≠ 0) : regimePlace w (2 ^ (w + 1) - 1) = ((w : Int) : ℚ) := by
  rw [regimePlace_complement (Nat.one_lt_two_pow w.succ_ne_zero), regimePlace_one hw]
  push_cast
  exact neg_neg _

theorem regimePlace_middle (w : Nat) : regimePlace w (2 ^ w) = ((0 : Int) : ℚ) := by
  have hself : 2 ^ (w + 1) - 2 ^ w = 2 ^ w := by
    rw [pow_succ']
    omega
  rw [regimePlace, if_neg (lt_irrefl _), hself, piecewiseLog_two_pow, sub_self, Int.cast_zero]

theorem magnitudeValue_middle (c : Config) : magnitudeValue c (2 ^ (c.n - 2)) = 1 := by
  rw [magnitudeValue_of_place (by positivity) (regimePlace_middle _), mul_zero, zpow_zero]

section
variable {c : Config} (hc : c.wf = true)
include hc

theorem magnitudeValue_one : magnitudeValue c 1 = c.minpos := by
  obtain ⟨hn, -, -⟩ := Config.wf_bounds hc
  rw [magnitudeValue_of_place one_ne_zero (regimePlace_one (by omega)), Config.minpos, bigT_cast hc, mul_neg, mul_comm]
  push_cast [show 2 ≤ c.n by omega]
  rfl

theorem magnitudeValue_maxposBits : magnitudeValue c c.maxposBits = c.maxpos := by
  obtain ⟨hn, -, -⟩ := Config.wf_bounds hc
  have hone := one_le_maxposBits hc
  have hlast : c.maxposBits = 2 ^ (c.n - 2 + 1) - 1 := by rw [Config.maxposBits, show c.n - 1 = c.n - 2 + 1 by omega]
  have hplace := regimePlace_last (w := c.n - 2) (by omega)
  rw [← hlast] at hplace
  rw [magnitudeValue_of_place (by omega) hplace, Config.maxpos, ← zpow_natCast, bigT_cast hc, mul_comm]
  push_cast [show 2 ≤ c.n by omega]
  rfl

theorem magnitudeValue_bounds {p : Nat} (h0 : p ≠ 0) (hp : p < 2 ^ (c.n - 1)) :
    c.minpos ≤ magnitudeValue c p ∧ magnitudeValue c p ≤ c.maxpos := by
  have hmax := maxposBits_add_one c
  rw [← magnitudeValue_one hc, ← magnitudeValue_maxposBits hc]
  constructor
  · rcases Nat.eq_or_lt_of_le (Nat.one_le_iff_ne_zero.mpr h0) with rfl | hlt
    · exact le_refl _
    · exact (magnitudeValue_lt hc hlt hp).le
  · rcases Nat.eq_or_lt_of_le (show p ≤ c.maxposBits by omega) with rfl | hlt
    · exact le_refl _
    · exact (magnitudeValue_lt hc hlt (by omega)).le

/-- The magnitude of a finite value is that of a positive pattern. -/
theorem abs_real_of_isFinitePattern {p : Nat} (hp : isFinitePattern c p = true) :
    ∃ q, q ≠ 0 ∧ q < 2 ^ (c.n - 1) ∧ ∀ v, (positDecode c p).real = some v → |v| = magnitudeValue c q := by
  obtain ⟨hlt, h0, hnar⟩ := isFinitePattern_iff.mp hp
  have hhalf := Config.two_pow_n (one_le_width hc)
  rcases lt_or_gt_of_ne hnar with hpos | hneg
  · refine ⟨p, h0, hpos, fun v hv => ?_⟩
    obtain rfl := Option.some.inj ((real_of_nonneg hc hpos).symm.trans hv)
    exact abs_of_nonneg (magnitudeValue_nonneg c p)
  · refine ⟨2 ^ c.n - p, by omega, by omega, fun v hv => ?_⟩
    obtain rfl := Option.some.inj ((real_of_neg hc hneg hlt).symm.trans hv)
    rw [abs_neg, abs_of_nonneg (magnitudeValue_nonneg c _)]

end

/-- Settles O34: three positive patterns at the ends and the middle of the line, their two's complements, and everything
else in between. -/
theorem decodeExtremes : Obligations.DecodeExtremes := by
  intro c hc
  obtain ⟨hn, -, -⟩ := Config.wf_bounds hc
  have hhalf := Config.two_pow_n (one_le_width hc)
  have hmax := maxposBits_add_one c
  have hone := one_le_maxposBits hc
  have hquarter : 2 ^ (c.n - 1) = 2 * 2 ^ (c.n - 2) := by rw [← pow_succ', show c.n - 2 + 1 = c.n - 1 by omega]
  have hbig : 1 < 2 ^ (c.n - 2) := Nat.one_lt_two_pow (by omega)
  have hneg {p q : Nat} (hp : p + q = 2 ^ c.n) (h0 : q ≠ 0) (hq : q < 2 ^ (c.n - 1)) :
      (positDecode c p).real = some (-magnitudeValue c q) := by
    obtain rfl : q = 2 ^ c.n - p := by omega
    exact real_of_neg hc (by omega) (by omega)
  refine ⟨?_, ?_, ?_, ?_, ?_, ?_, fun p v hp hv => ?_⟩
  · rw [real_of_nonneg hc (by omega), magnitudeValue_one hc]
  · rw [real_of_nonneg hc (by omega), ← magnitudeValue_maxposBits hc, Config.maxposBits]
  · rw [hneg (q := 1) (by omega) (by omega) (by omega), magnitudeValue_one hc]
  · rw [hneg (q := c.maxposBits) (by omega) (by omega) (by omega), magnitudeValue_maxposBits hc]
  · rw [real_of_nonneg hc (by omega), magnitudeValue_middle]
  · rw [hneg (q := 2 ^ (c.n - 2)) (by omega) (by omega) (by omega), magnitudeValue_middle]
  · obtain ⟨q, h0, hq, habs⟩ := abs_real_of_isFinitePattern hc hp
    rw [habs v hv]
    exact magnitudeValue_bounds hc h0 hq

end Sys2Proof.Machine
end

section
/-! SUPPORT. The arithmetic layer (R120 to R127): negation, NaR, exact results, and the order. -/

namespace Sys2Proof.Machine

theorem Binary64.val_neg_eq_none {d : Word} (hd : val d = none) : val (neg d) = none := by
  rw [val_eq_none_iff, expo_neg]
  exact (val_eq_none_iff d).mp hd

theorem negBits_narBits {c : Config} (hc : c.wf = true) : c.negBits c.narBits = c.narBits := by
  have hn := one_le_width hc
  have hhalf := Config.two_pow_n hn
  rw [Config.negBits_of_pos (Nat.pos_of_ne_zero (narBits_ne_zero c)) (Config.narBits_lt hn), Config.narBits]
  omega

/-- The negation of any decoded pattern encodes to the two's complement, of zero and NaR too. -/
theorem positEncode_neg_of_decoded {c : Config} (hc : c.wf = true) {p : Nat} (hp : p < 2 ^ c.n) :
    positEncode c (Binary64.neg (positDecodeF64 c p)) = c.negBits p := by
  by_cases h0 : p = 0
  · subst h0
    have hzero : Binary64.val 0#64 = some 0 := (val_eq_zero_iff 0#64).mpr ⟨rfl, rfl⟩
    have hneg : Binary64.val (Binary64.neg 0#64) = some 0 := by rw [Binary64.val_neg hzero, neg_zero]
    rw [positDecodeF64_zero, positEncode_zero hneg, Config.negBits_zero]
    rfl
  by_cases hnar : p = c.narBits
  · subst hnar
    have hnone := Binary64.val_neg_eq_none (val_of_isNaN (Config.wf_nan hc))
    rw [positDecodeF64_nar, positEncode_of_val_eq_none hnone, negBits_narBits hc]
  · rw [positEncode_neg_positDecodeF64 hc (isFinitePattern_iff.mpr ⟨hp, h0, hnar⟩), encodeDecodeRoundTrip c p hc hp]

/-- Settles O52: the encoder turns the flipped sign into the two's complement, which zero and NaR are of themselves. -/
theorem negationIsTwosComplement : Obligations.NegationIsTwosComplement := by
  intro a hc hbits
  have hneg : a.neg.bits = a.cfg.negBits a.bits := positEncode_neg_of_decoded hc hbits
  refine ⟨hneg, rfl, fun hself => ?_, rfl⟩
  rw [hneg]
  rcases hself with h0 | hnar
  · rw [h0, Config.negBits_zero]
  · rw [hnar]
    exact negBits_narBits hc

theorem isNaN_undefinedWord : Binary64.isNaN undefinedWord = true := by decide

theorem isNaN_eq_false_of_val {d : Word} {v : ℚ} (hv : Binary64.val d = some v) : Binary64.isNaN d = false := by
  by_contra h
  simp [val_of_isNaN (Bool.eq_true_of_not_eq_false h)] at hv

/-- A NaN operand gives a NaN (R125). -/
theorem isNaN_hostBinary_of_isNaN (op : HostBinary) {a b : Word}
    (h : Binary64.isNaN a = true ∨ Binary64.isNaN b = true) : Binary64.isNaN (hostBinary op a b) = true := by
  rw [hostBinary]
  by_cases ha : Binary64.isNaN a = true
  · rwa [if_pos ha]
  · rw [if_neg ha, if_pos (h.resolve_left ha)]
    exact h.resolve_left ha

theorem isNaN_hostUnary_of_isNaN (op : HostUnary) {a : Word} (h : Binary64.isNaN a = true) :
    Binary64.isNaN (hostUnary op a) = true := by
  rwa [hostUnary, if_pos h]

/-- On two real operands: a NaN where the outcome is undefined, else the exact outcome where it has a word (R122, R125). -/
theorem hostBinary_of_val (op : HostBinary) {a b : Word} {x y : ℚ} (ha : Binary64.val a = some x)
    (hb : Binary64.val b = some y) :
    hostBinary op a b = if binaryUndefined op x y then undefinedWord
      else ((binaryExact op x y).bind Binary64.f64).getD (Config.f64Binary op a b) := by
  simp only [hostBinary, isNaN_eq_false_of_val ha, isNaN_eq_false_of_val hb, ha, hb, Bool.false_eq_true, if_false]

theorem hostUnary_of_undefined {op : HostUnary} {a : Word} {x : ℚ} (ha : Binary64.val a = some x)
    (hx : unaryUndefined op x = true) : hostUnary op a = undefinedWord := by
  simp only [hostUnary, isNaN_eq_false_of_val ha, ha, hx, Bool.false_eq_true, if_false, if_true]

theorem Posit.isNaN_word {a : Posit} (hc : a.cfg.wf = true) (hnar : a.bits = a.cfg.narBits) :
    Binary64.isNaN a.word = true := by
  rw [Posit.word, hnar, positDecodeF64_nar]
  exact Config.wf_nan hc

theorem Posit.val_word {a : Posit} (hc : a.cfg.wf = true) (hbits : a.bits < 2 ^ a.cfg.n) :
    Binary64.val a.word = (positDecode a.cfg a.bits).real := val_positDecodeF64 hc hbits

/-- NaR gives a NaN, and every other pattern a word with a real value (R62, R72). -/
theorem Posit.isNaN_word_or_val {a : Posit} (hc : a.cfg.wf = true) (hbits : a.bits < 2 ^ a.cfg.n) :
    Binary64.isNaN a.word = true ∨ ∃ x, Binary64.val a.word = some x := by
  by_cases hnar : a.bits = a.cfg.narBits
  · exact .inl (Posit.isNaN_word hc hnar)
  · exact .inr ⟨_, (Posit.val_word hc hbits).trans (real_of_ne_nar hc hbits hnar).2⟩

/-- Division by zero gives a NaN, whatever is divided (R125). -/
theorem isNaN_div_zero {a : Posit} (hc : a.cfg.wf = true) (hbits : a.bits < 2 ^ a.cfg.n) :
    Binary64.isNaN (hostBinary .div a.word 0#64) = true := by
  rcases Posit.isNaN_word_or_val hc hbits with hnan | ⟨x, hx⟩
  · exact isNaN_hostBinary_of_isNaN .div (.inl hnan)
  · rw [hostBinary_of_val .div hx ((val_eq_zero_iff 0#64).mpr ⟨rfl, rfl⟩), if_pos (by simp [binaryUndefined])]
    exact isNaN_undefinedWord

/-- Settles O53: in each case the host's word is a NaN, and every NaN encodes to NaR. -/
theorem narAbsorbsArithmetic : Obligations.NarAbsorbsArithmetic := by
  intro a b ha hb hsame habits hbbits
  have hbinary (op : HostBinary) (h : Binary64.isNaN (hostBinary op a.word b.word) = true) :
      ∃ x : Posit, Posit.binary op a b = .next x ∧ x.bits = a.cfg.narBits :=
    ⟨_, formatGuard_same hsame _, positEncode_of_isNaN h⟩
  have hoperand (hnar : a.bits = a.cfg.narBits ∨ b.bits = b.cfg.narBits) :=
    hnar.imp (Posit.isNaN_word ha) (Posit.isNaN_word hb)
  refine ⟨fun hnar op => hbinary op (isNaN_hostBinary_of_isNaN op (hoperand hnar)),
    fun hnar op => positEncode_of_isNaN (isNaN_hostUnary_of_isNaN op (Posit.isNaN_word ha hnar)),
    fun hzero => hbinary .div ?_, fun v hv hneg => ?_⟩
  · rw [Posit.word, Posit.word, hzero, positDecodeF64_zero]
    exact isNaN_div_zero ha habits
  · have hword := hostUnary_of_undefined (op := .sqrt) ((Posit.val_word ha habits).trans hv) (decide_eq_true hneg)
    have hnan : Binary64.isNaN (hostUnary .sqrt a.word) = true := hword ▸ isNaN_undefinedWord
    exact positEncode_of_isNaN hnan

/-- The four operators are defined and exact, but for a zero divisor (R122). -/
theorem binaryExact_of_operator {op : HostBinary} {x y v : ℚ}
    (h : op = .add ∧ v = x + y ∨ op = .sub ∧ v = x - y ∨ op = .mul ∧ v = x * y ∨ op = .div ∧ y ≠ 0 ∧ v = x / y) :
    binaryUndefined op x y = false ∧ binaryExact op x y = some v := by
  obtain ⟨rfl, rfl⟩ | ⟨rfl, rfl⟩ | ⟨rfl, rfl⟩ | ⟨rfl, hy, rfl⟩ := h
  · exact ⟨rfl, rfl⟩
  · exact ⟨rfl, rfl⟩
  · exact ⟨rfl, rfl⟩
  · exact ⟨decide_eq_false hy, rfl⟩

/-- Settles O54: the host gives the word of the exact outcome, which the datapath encodes as the exact form does. -/
theorem exactOperatorsEncodeTheRealResult : Obligations.ExactOperatorsEncodeTheRealResult := by
  intro a b x y v w op ha hb hsame habits hbbits hx hy hop hw
  obtain ⟨hdefined, hexact⟩ := binaryExact_of_operator hop
  have hword : hostBinary op a.word b.word = w := by
    rw [hostBinary_of_val op ((Posit.val_word ha habits).trans hx) ((Posit.val_word hb hbbits).trans hy), hdefined,
      hexact, Option.bind_some, hw, if_neg Bool.false_ne_true, Option.getD_some]
  refine ⟨_, formatGuard_same hsame _, ?_⟩
  rw [hword]
  exact positEncode_eq_exact ha w

theorem wordLess_of_val {a b : Word} {x y : ℚ} (ha : Binary64.val a = some x) (hb : Binary64.val b = some y) :
    wordLess a b = decide (x < y) := by
  simp [wordLess, ha, hb]

theorem wordLessEq_of_val {a b : Word} {x y : ℚ} (ha : Binary64.val a = some x) (hb : Binary64.val b = some y) :
    wordLessEq a b = decide (x ≤ y) := by
  simp [wordLessEq, ha, hb]

/-- The value of an integer depends on the format alone. -/
theorem signedValue_congr {c c' : Config} (hn : c.n = c'.n) (hes : c.es = c'.es) (i : Int) :
    signedValue c i = signedValue c' i := by
  simp only [signedValue, magnitudeValue, hn, hes]

/-- Settles O56: both words hold the values of the integers that the patterns read as, which grow with these. -/
theorem orderIsSignedPatternOrder : Obligations.OrderIsSignedPatternOrder := by
  intro a b ha hb hsame habits hbbits hanar hbnar
  obtain ⟨hn, hes⟩ := sameFormat_iff.mp hsame
  obtain ⟨hi, hx⟩ := real_of_ne_nar ha habits hanar
  obtain ⟨hj, hy⟩ := real_of_ne_nar hb hbbits hbnar
  rw [← Posit.val_word ha habits] at hx
  rw [← Posit.val_word hb hbbits, ← signedValue_congr hn hes] at hy
  rw [← hn] at hj
  have hmono := signedValue_strictMonoOn ha
  rw [Posit.less, Posit.lessEq, Posit.greater, Posit.greaterEq, formatGuard_same hsame, formatGuard_same hsame,
    formatGuard_same hsame, formatGuard_same hsame, wordLess_of_val hx hy, wordLessEq_of_val hx hy,
    wordLess_of_val hy hx, wordLessEq_of_val hy hx]
  simp only [hmono.lt_iff_lt hi hj, hmono.le_iff_le hi hj, hmono.lt_iff_lt hj hi, hmono.le_iff_le hj hi, and_self]

end Sys2Proof.Machine
end
